-- ==== Sys2Proof/Word.lean ====
section
/-! DEFINITION. The two value types of the block (spec/00_scope.md R6): the 32-bit word and the
byte. All arithmetic on them is unsigned and wraps (R7), which is what `BitVec` gives. -/

namespace Sys2Proof

/-- A word, `u32` of R6. -/
abbrev Word := BitVec 32

/-- A byte of R6. -/
abbrev Byte := BitVec 8

end Sys2Proof
end

