-- ==== Sys2Proof/Syntax.lean ====
section
/-! DEFINITION. The seven commands of the block, one constructor per row of spec/opcode_table.json
(spec/30_encoding.md R92). A command has no operand field (R91): its operands are the buffer, `LEN`
and the table, and its variant is part of its name. -/

namespace Sys2Proof

/-- The commands of R92. -/
inductive Instr where
  /-- `cipher.std`, R120. -/
  | cipherStd
  /-- `cipher.alt`, R121. -/
  | cipherAlt
  /-- `hash`, R146. -/
  | hash
  /-- `encrypt.std`, R160. -/
  | encryptStd
  /-- `encrypt.alt`, R163. -/
  | encryptAlt
  /-- `decrypt.std`, R166. -/
  | decryptStd
  /-- `decrypt.alt`, R169. -/
  | decryptAlt
  deriving DecidableEq, Repr

end Sys2Proof
end

