-- ==== Sys2Proof/WellFormed.lean ====
section
/-! DEFINITION. The command format `CMD` of spec/30_encoding.md R90 as three fields, and which
fields make a legal command (R90, R93). -/

namespace Sys2Proof

/-- The fields of a command word (R90). -/
structure CmdFields where
  /-- `RSV`, bits 31:5. -/
  rsv : BitVec 27
  /-- `V`, bit 4: 0 standard, 1 alternate. -/
  v : BitVec 1
  /-- `OP`, bits 3:0. -/
  op : BitVec 4
  deriving DecidableEq, Repr

/-- "reserved, must be 0; any 1 bit makes the word illegal" (R90). -/
def CmdFields.reservedZero (f : CmdFields) : Bool := f.rsv == 0

/-- 1 cipher, 2 hash, 3 encrypt, 4 decrypt; "every other value illegal" (R90). -/
def CmdFields.opLegal (f : CmdFields) : Bool := f.op == 1 || f.op == 2 || f.op == 3 || f.op == 4

/-- `hash` with `V = 1` is illegal: the checksum has no variant (R93). -/
def CmdFields.variantLegal (f : CmdFields) : Bool := !(f.op == 2 && f.v == 1)

/-- A legal command word's fields (R93). -/
def CmdFields.wellFormed (f : CmdFields) : Bool := f.reservedZero && f.opLegal && f.variantLegal

/-- The fields of each command (R92). -/
def Instr.fields : Instr → CmdFields
  | .cipherStd => { rsv := 0, v := 0, op := 1 }
  | .cipherAlt => { rsv := 0, v := 1, op := 1 }
  | .hash => { rsv := 0, v := 0, op := 2 }
  | .encryptStd => { rsv := 0, v := 0, op := 3 }
  | .encryptAlt => { rsv := 0, v := 1, op := 3 }
  | .decryptStd => { rsv := 0, v := 0, op := 4 }
  | .decryptAlt => { rsv := 0, v := 1, op := 4 }

/-- A command is well formed when its fields are. Every command is: it has no operand to get wrong. -/
def Instr.wellFormed (i : Instr) : Bool := i.fields.wellFormed

end Sys2Proof
end

