-- ==== Sys2Proof/Decode.lean ====
section
/-! DEFINITION. Decoding of a command word (spec/30_encoding.md R90, R92, R93), total on all 2^32
words and rejecting by name; after it the encoder from the same format, and the mnemonics of R98. -/

namespace Sys2Proof

/-- Why a command word is illegal: the classes of R93. The block reports all of them by the one
code ILLEGAL (60_exceptions R182). -/
inductive DecodeError where
  /-- A 1 in bits 31:5. -/
  | reservedBits
  /-- `OP` is 0 or 5 to 15. -/
  | illegalOp
  /-- `hash` with `V = 1`. -/
  | hashVariant
  deriving DecidableEq, Repr

/-- The fields of a word: `RSV` 31:5, `V` 4, `OP` 3:0 (R90). -/
def fieldsOfWord (w : Word) : CmdFields where
  rsv := w.extractLsb' 5 27
  v := w.extractLsb' 4 1
  op := w.extractLsb' 0 4

/-- The word of given fields (R90). -/
def wordOfFields (f : CmdFields) : Word := f.rsv ++ (f.v ++ f.op)

/-- The opcode map of R92 over the fields, rejecting everything else (R93). -/
def decodeFields (f : CmdFields) : Except DecodeError Instr :=
  if f.rsv ≠ 0 then .error .reservedBits
  else if f.op = 1 then (if f.v = 0 then .ok .cipherStd else .ok .cipherAlt)
  else if f.op = 2 then (if f.v = 0 then .ok .hash else .error .hashVariant)
  else if f.op = 3 then (if f.v = 0 then .ok .encryptStd else .ok .encryptAlt)
  else if f.op = 4 then (if f.v = 0 then .ok .decryptStd else .ok .decryptAlt)
  else .error .illegalOp

/-- Decode a command word. -/
def decode (w : Word) : Except DecodeError Instr := decodeFields (fieldsOfWord w)

/-- The command word of a command: "the word is the only encoding of it" (R92). -/
def encode (i : Instr) : Word := wordOfFields i.fields

/-- The host's question about one row of the table: the command the decoder reads from a word of
`nbits` bits, all higher bits 0. A command word is one 32-bit word (R90); it is written whole to a
port and has no bytes to lay out (20_memory R71). -/
def decodeTableWord (nbits w : Nat) : Option Instr :=
  match decode (BitVec.ofNat 32 (w % 2 ^ nbits)) with
  | .ok i => some i
  | .error _ => none

/-- The mnemonic of a command (R98). -/
def mnemonicOf : Instr → String
  | .cipherStd => "cipher.std"
  | .cipherAlt => "cipher.alt"
  | .hash => "hash"
  | .encryptStd => "encrypt.std"
  | .encryptAlt => "encrypt.alt"
  | .decryptStd => "decrypt.std"
  | .decryptAlt => "decrypt.alt"

/-- All commands, in the order of R92. -/
def allInstrs : List Instr :=
  [.cipherStd, .cipherAlt, .hash, .encryptStd, .encryptAlt, .decryptStd, .decryptAlt]

/-- The command word of a mnemonic, lower case as R98 writes it; none for any other text. -/
def assemble (text : String) : Option Word :=
  (allInstrs.find? (fun i => mnemonicOf i == text)).map encode

end Sys2Proof
end

