-- ==== Sys2Proof/Config.lean ====
section
/-! DEFINITION. The implementation parameters of spec/00_scope.md R4 and the free values of
spec/93_implementation_defined.md U1 to U5. Every function of the model takes a `Config`; the
machine itself runs with `Config.platform`, whose fields are opaque constants without a body. -/

namespace Sys2Proof

/-- The parameters of R4 that reach the block, and the draws of 93 U1, U2, U3. Configuration, not
state (10_state R20). -/
structure Config where
  /-- `TABLE`, 256 words; the index is 8 bits wide, so that no other index exists (R62, R74). -/
  table : BitVec 8 → Word
  /-- `TABLE_VALID`, the strap as the first reset samples it (R184). -/
  tableValid : Bool
  /-- `BUFCAP`, the bytes of buffer storage. -/
  bufCap : Nat
  /-- `BUF_RESET`: the byte that the reset number `n` (0 is the first) leaves at an index. -/
  bufReset : Nat → Nat → Byte
  /-- What the table port reads at an index after the reset number `n`, if that reset found the table
  invalid (R184, 93 U3): fixed until the next reset, since repeated reads agree (R67). -/
  invalidTable : Nat → BitVec 8 → Word
  /-- The `n`-th unspecified word a busy register read returns (R73, 93 U2). -/
  freeWord : Nat → Word
  /-- The `n`-th unspecified byte a port returns (R73, 93 U2). -/
  freeByte : Nat → Byte

/-- The constraint of R4 on `BUFCAP`: `4 <= BUFCAP <= 2^32 - 4`. -/
abbrev Config.Valid (cfg : Config) : Prop := 4 ≤ cfg.bufCap ∧ cfg.bufCap ≤ 4294967292

/-- FREE VALUE: the 256 words of the table (R62, 93 U4). -/
opaque Config.tableWord : BitVec 8 → Word

/-- FREE VALUE: the strap at the first reset (R184). -/
opaque Config.tableValidStrap : Bool

/-- FREE VALUE: the number `BUFCAP` is made from (93 U5). -/
opaque Config.bufCapRaw : Nat

/-- FREE VALUE: buffer storage after a reset (R50, 93 U1). -/
opaque Config.bufResetByte : Nat → Nat → Byte

/-- FREE VALUE: the table port while the table is invalid (R184, 93 U3). -/
opaque Config.invalidTableWord : Nat → BitVec 8 → Word

/-- FREE VALUE: unspecified words at the register port (R73, 93 U2). -/
opaque Config.portWord : Nat → Word

/-- FREE VALUE: unspecified bytes at the buffer port (R73, 93 U2). -/
opaque Config.portByte : Nat → Byte

/-- The configuration of the machine `core`: every parameter a free value. `BUFCAP` is any number
that R4 allows: the bounds of R4 are the only thing known of it. -/
def Config.platform : Config where
  table := Config.tableWord
  tableValid := Config.tableValidStrap
  bufCap := max 4 (min Config.bufCapRaw 4294967292)
  bufReset := Config.bufResetByte
  invalidTable := Config.invalidTableWord
  freeWord := Config.portWord
  freeByte := Config.portByte

end Sys2Proof
end

