-- ==== Sys2Proof/Machine/State.lean ====
section
/-! DEFINITION. The state of the block (spec/10_state.md R20 to R31, R50; spec/20_memory.md R60),
the reasons a step can stop, the host's operations as data (R70, R99), and reset. -/

namespace Sys2Proof.Machine

/-- Why a step stops. The spec gives the block no stop at all: both reasons arise only in states
that no run reaches (`Inv` in Safety.lean holds in every reachable state and excludes them), and
both are SAFE: the model stops where the spec says nothing. -/
inductive Fault where
  /-- Raised by the engine's accesses (every command, HASH, TRAIL, STRIDE, POST) where the index does
  not exist: `BUF` has indices 0 to `BUFCAP - 1` (R60, R61). Safe. -/
  | bufferIndex
  /-- Raised by an engine step in a phase whose rules give no step in that state: HASH with
  `POS > LEN` (R143), HASH's exit with `OPL` neither 2 nor 3, POST of `decrypt.std` with `LEN < 4`
  (R167). Safe. -/
  | noEngineStep
  deriving DecidableEq, Repr

/-- Why an instruction has no meaning. -/
inductive Refusal where
  /-- Raised by an arm of `exec` for a command without a meaning; no arm does. Safe. -/
  | notModelled (mnemonic : String)
  deriving DecidableEq, Repr

/-- `PHASE`, the eight values of R31. -/
inductive Phase where
  | idle
  | hinit
  | hash
  | trail
  | ksinit
  | stride
  | post
  | finish
  deriving DecidableEq, Repr

/-- The values of `STATUS.ERR` that are ever produced (60_exceptions R180: 0 to 4). -/
inductive RefusalCode where
  | noRefusal
  | illegal
  | length
  | capacity
  | table
  deriving DecidableEq, Repr

/-- `STATUS` (R27), field by field. -/
structure Status where
  busy : Bool
  done : Bool
  fatal : Bool
  wrbusy : Bool
  err : RefusalCode
  deriving DecidableEq, Repr

/-- Buffer storage that something has been written to: (index, byte) pairs, indices strictly rising,
no pair equal to what an unlisted index reads as (see `Memory.read`, `Memory.wf`). -/
abbrev Memory := List Host.Cell

/-- The five host operations of R70. -/
inductive HostOp where
  /-- `HostReadReg(r)`. -/
  | readReg (r : BitVec 4)
  /-- `HostWriteReg(r, v)`. -/
  | writeReg (r : BitVec 4) (v : Word)
  /-- `HostReadBuf(i)`. -/
  | readBuf (i : Word)
  /-- `HostWriteBuf(i, b)`. -/
  | writeBuf (i : Word) (b : Byte)
  /-- `HostReadTable(i)`. -/
  | readTable (i : BitVec 8)
  deriving DecidableEq, Repr

/-- What the world outside the block does next. -/
inductive HostEvent where
  /-- One port operation (R70), taken between two engine micro-steps if the block is busy. -/
  | op (o : HostOp)
  /-- The write of a command word to `CMD` by a host that keeps the lock-out of R220 until the
  command has ended: the command is one atomic event (R12, R80). -/
  | run (w : Word)
  /-- The host makes no access: the engine takes its next micro-step, if it has one. -/
  | pass
  /-- The statement `wait` of R99: the host polls `STATUS` until `BUSY` is 0. -/
  | wait
  /-- The statement `store` of R99: read `LEN`, then so many buffer bytes. -/
  | store
  /-- The reset input is asserted and released (R210, R211); the strap `TABLE_VALID` has the level
  given. -/
  | reset (tableValid : Bool)
  deriving DecidableEq, Repr

/-- What a host read returned. -/
inductive Reply where
  | word (w : Word)
  | byte (b : Byte)
  deriving DecidableEq, Repr

/-- The whole state of the block (R20), and at the end the model's own four fields. -/
structure State where
  /-- `V1`, the Cipher State's first word (R21). -/
  v1 : Word
  v2 : Word
  v3 : Word
  v4 : Word
  /-- `ACC`, the hidden working accumulator (R23). -/
  acc : Word
  /-- `CRC`, the last checksum returned (R24). -/
  crc : Word
  /-- `LEN`, the buffer's length in bytes (R28). -/
  len : Word
  /-- `SEED`, the seed of the last cipher pass (R29). -/
  seed : Word
  /-- `POS`, the current position (R29). -/
  pos : Word
  /-- `REM`, the bytes of the cipher pass not yet consumed (R29). -/
  rem : Word
  /-- `STATUS` (R27). -/
  status : Status
  /-- `PHASE` (R31). -/
  phase : Phase
  /-- `OPL`, the latched `OP` field (R31). -/
  opl : BitVec 4
  /-- `VL`, the latched `V` field (R31). -/
  vl : BitVec 1
  /-- `BUF` (R60). -/
  buf : Memory
  /-- The model's own: what the host will do, first event first. -/
  inputs : List HostEvent
  /-- The model's own: what host reads returned, oldest first. -/
  replies : List Reply
  /-- The model's own: how many unspecified port values have been drawn. -/
  draws : Nat
  /-- The model's own: how many resets came before the last one. -/
  epoch : Nat
  deriving DecidableEq, Repr

/-- The block right after a reset (R50, R210) that sampled the strap `tableValid`; `epoch` numbers
the reset, and with it the unspecified contents of `BUF`. The host's side is as given. -/
def State.afterReset (tableValid : Bool) (epoch : Nat) (inputs : List HostEvent)
    (replies : List Reply) (draws : Nat) : State where
  v1 := 0
  v2 := 0
  v3 := 0
  v4 := 0
  acc := 0
  crc := 0
  len := 0
  seed := 0
  pos := 0
  rem := 0
  status := { busy := false, done := false, fatal := !tableValid, wrbusy := false, err := .noRefusal }
  phase := .idle
  opl := 0
  vl := 0
  buf := []
  inputs := inputs
  replies := replies
  draws := draws
  epoch := epoch

/-- The machine right after its first reset (R50), with a host that has yet to do anything. -/
def State.reset : State := State.afterReset Config.platform.tableValid 0 [] [] 0

end Sys2Proof.Machine
end

