-- ==== Sys2Proof/Machine/Flags.lean ====
section
/-! DEFINITION. `STATUS` as a word and every way a `STATUS` field changes (spec/10_state.md R27,
spec/60_exceptions.md R180, R181, R187). No field depends on data (R32): there is no other flag. -/

namespace Sys2Proof.Machine

/-- The code in `STATUS.ERR` (R180). -/
def RefusalCode.code : RefusalCode → BitVec 4
  | .noRefusal => 0
  | .illegal => 1
  | .length => 2
  | .capacity => 3
  | .table => 4

/-- One status bit. -/
def bitOf (b : Bool) : BitVec 1 := if b then 1 else 0

/-- `STATUS` as the register port reads it: BUSY 0, DONE 1, FATAL 2, WRBUSY 3, ERR 7:4, all other
bits 0 (R27). -/
def Status.toWord (f : Status) : Word :=
  (0 : BitVec 24) ++ (f.err.code ++ (bitOf f.wrbusy ++ (bitOf f.fatal ++ (bitOf f.done ++ bitOf f.busy))))

/-- The refusal primitive's effect on `STATUS`: `ERR <- c` (R181). -/
def Status.refused (f : Status) (c : RefusalCode) : Status := { f with err := c }

/-- The first line of R95: `DONE <- 0`. -/
def Status.doneCleared (f : Status) : Status := { f with done := false }

/-- Acceptance (R95): `DONE <- 0; ERR <- 0; BUSY <- 1`. -/
def Status.accepted (f : Status) : Status := { f with busy := true, done := false, err := .noRefusal }

/-- FINISH (R97): `BUSY <- 0; DONE <- 1`. -/
def Status.finished (f : Status) : Status := { f with busy := false, done := true }

/-- A host write while busy (R187): `WRBUSY <- 1`. -/
def Status.wroteWhileBusy (f : Status) : Status := { f with wrbusy := true }

end Sys2Proof.Machine
end

