-- ==== Sys2Proof/Machine/Operands.lean ====
section
/-! DEFINITION. The operand forms of the block: byte lanes and byte order (spec/00_scope.md R9), the
buffer as implicit operand (spec/30_encoding.md R91), and the seed the variant selects (R91). -/

namespace Sys2Proof.Machine

/-- `lane(w, k)`: bits `8k+7` down to `8k` of `w` (R9). -/
def lane (w : Word) (k : Nat) : Byte := w.extractLsb' (8 * k) 8

/-- `le_bytes(w)`: byte 0 is bits 7:0 (R9). -/
def leBytes (w : Word) : List Byte := [lane w 0, lane w 1, lane w 2, lane w 3]

/-- `zext_32(b)` (R9). -/
def zext32 (b : Byte) : Word := b.setWidth 32

/-- `le_word([b0, b1, b2, b3])` (R9): `b0 + 256*b1 + 65536*b2 + 16777216*b3`. -/
def leWord (b0 b1 b2 b3 : Byte) : Word :=
  zext32 b0 + 256 * zext32 b1 + 65536 * zext32 b2 + 16777216 * zext32 b3

/-- What the byte at index `a` reads as; `dflt` gives the bytes that are not listed. -/
def Memory.read (dflt : Nat → Byte) : Memory → Nat → Byte
  | [], a => dflt a
  | (k, b) :: m, a => if a = k then b else Memory.read dflt m a

/-- What an unlisted index of `BUF` reads as: the byte the last reset left there, a free value
(R50, 93 U1). The one definition of it. -/
def unwritten (cfg : Config) (s : State) : Nat → Byte := cfg.bufReset s.epoch

/-- `BUF[a]` (R10, R60). -/
def bufByte (cfg : Config) (s : State) (a : Nat) : Byte := Memory.read (unwritten cfg s) s.buf a

/-- `MemRead(a, n)`, for any `n` (R10). -/
def memRead (cfg : Config) (s : State) (a n : Nat) : List Byte :=
  (List.range n).map (fun k => bufByte cfg s (a + k))

/-- The Byte Buffer `BUF[0 .. LEN-1]`, the implicit operand of every command (R60, R91). -/
def payload (cfg : Config) (s : State) : List Byte := memRead cfg s 0 s.len.toNat

/-- The standard seed (R5, R91). -/
def seedStd : Word := 0x3F6CA177

/-- The alternate seed (R5, R91). -/
def seedAlt : Word := 0x000000B8

/-- `seed(V)` (R91). -/
def seedOf (v : BitVec 1) : Word := if v = 0 then seedStd else seedAlt

end Sys2Proof.Machine
end

