-- ==== Sys2Proof/Machine/Ops.lean ====
section
/-! DEFINITION. The named operations over memory and registers: writing buffer storage
(spec/00_scope.md R10), the refusal (spec/60_exceptions.md R181, the block's one exceptional
mechanism, from which there is nothing to return: R190), a dropped write (R187), command acceptance
and its order (spec/30_encoding.md R95), FINISH (R97), and one command as one atomic event (R12). -/

namespace Sys2Proof.Machine

/-- The canonical form of buffer storage: indices strictly rising, no pair equal to what an unlisted
index reads as. -/
abbrev Memory.wf (dflt : Nat → Byte) (m : Memory) : Prop :=
  m.Pairwise (fun c d => c.1 < d.1) ∧ ∀ c ∈ m, c.2 ≠ dflt c.1

/-- `BUF[a] <- b`. -/
def Memory.write (dflt : Nat → Byte) : Memory → Nat → Byte → Memory
  | [], a, b => if b = dflt a then [] else [(a, b)]
  | (k, c) :: m, a, b =>
    if a < k then (if b = dflt a then (k, c) :: m else (a, b) :: (k, c) :: m)
    else if a = k then (if b = dflt a then m else (a, b) :: m)
    else (k, c) :: Memory.write dflt m a b

/-- Bytes written at consecutive indices from `a`. -/
def Memory.writeList (dflt : Nat → Byte) : Memory → Nat → List Byte → Memory
  | m, _, [] => m
  | m, a, b :: bs => Memory.writeList dflt (Memory.write dflt m a b) (a + 1) bs

/-- `MemWrite(a, n, bs)` with `n` the length of `bs` (R10). -/
def memWrite (cfg : Config) (s : State) (a : Nat) (bs : List Byte) : State :=
  { s with buf := Memory.writeList (unwritten cfg s) s.buf a bs }

/-- The `n` indices from `a` exist (R60). -/
abbrev inBuffer (cfg : Config) (a n : Nat) : Prop := a + n ≤ cfg.bufCap

/-- `refuse c` (R181): `STATUS.ERR <- c` and nothing else. -/
def refuse (c : RefusalCode) (s : State) : State := { s with status := s.status.refused c }

/-- A host write while busy is dropped and sets `WRBUSY` (R75, R187). -/
def dropWhileBusy (s : State) : State := { s with status := s.status.wroteWhileBusy }

/-- A refused command word: `DONE <- 0`, then the refusal (R95). -/
def refuseCommand (c : RefusalCode) (s : State) : State :=
  refuse c { s with status := s.status.doneCleared }

/-- The length preconditions of R95: LENGTH for `decrypt.*` and `encrypt.alt` with `LEN < 4` (R183),
CAPACITY for `encrypt.std` with `LEN + 4 > BUFCAP`, compared as natural numbers (R185). -/
def lengthRefusal (cfg : Config) (i : Instr) (s : State) : Option RefusalCode :=
  match i with
  | .decryptStd => if s.len.toNat < 4 then some .length else none
  | .decryptAlt => if s.len.toNat < 4 then some .length else none
  | .encryptAlt => if s.len.toNat < 4 then some .length else none
  | .encryptStd => if s.len.toNat + 4 > cfg.bufCap then some .capacity else none
  | .cipherStd => none
  | .cipherAlt => none
  | .hash => none

/-- Why an idle block refuses a legal command word: TABLE first, then the length (R95, R189). -/
def refusalOf (cfg : Config) (i : Instr) (s : State) : Option RefusalCode :=
  if s.status.fatal then some .table else lengthRefusal cfg i s

/-- The first phase of a command: HINIT for `OP` 2 and 3, KSINIT for `OP` 1 and 4 (R95). -/
def firstPhase (i : Instr) : Phase :=
  if i.fields.op = 2 ∨ i.fields.op = 3 then .hinit else .ksinit

/-- Acceptance (R95). -/
def accept (i : Instr) (s : State) : State :=
  { s with status := s.status.accepted, opl := i.fields.op, vl := i.fields.v, phase := firstPhase i }

/-- The FINISH micro-step (R97). -/
def finishStep (s : State) : State := { s with status := s.status.finished, phase := .idle }

/-- A legal command word is written to `CMD`: dropped when busy, else refused or accepted (R95, R189). -/
def issueInstr (cfg : Config) (i : Instr) (s : State) : State :=
  if s.status.busy then dropWhileBusy s
  else match refusalOf cfg i s with
    | some c => refuseCommand c s
    | none => accept i s

/-- An illegal word is written to `CMD`: dropped when busy, else TABLE before ILLEGAL (R95, R189). -/
def issueIllegal (s : State) : State :=
  if s.status.busy then dropWhileBusy s
  else refuseCommand (if s.status.fatal then .table else .illegal) s

/-- The event "issue command word `w`" of R26, with the whole decision of R95. -/
def issue (cfg : Config) (w : Word) (s : State) : State :=
  match decode w with
  | .ok i => issueInstr cfg i s
  | .error _ => issueIllegal s

/-- The word of `i`, written to `CMD` now, is accepted (R95). -/
abbrev isAccepted (cfg : Config) (i : Instr) (s : State) : Prop :=
  s.status.busy = false ∧ refusalOf cfg i s = none

/-- A command as one atomic event (R12, R80): its word is written to `CMD`, and if it is accepted, its
big-step effect happens and FINISH ends it. A command works on `BUF[0 .. LEN-1]`, whose bytes exist
in every reachable state (R28); in any other state an accepted command faults. -/
def command (cfg : Config) (i : Instr) (effect : State → State) (s : State) :
    Host.Outcome State Fault Refusal :=
  if ¬ inBuffer cfg 0 s.len.toNat ∧ isAccepted cfg i s then .fault .bufferIndex
  else .next (if isAccepted cfg i s then finishStep (effect (accept i s)) else issueInstr cfg i s)

end Sys2Proof.Machine
end

