-- ==== Sys2Proof/Machine/Checksum.lean ====
section
/-! DEFINITION. The Checksum Engine (spec/41_checksum_engine.md): the pure functions (R140, R144), the
micro-steps HINIT and HASH (R141 to R143), the command `hash` (R146), and how a table blob becomes
the 256 words outside the block (spec/20_memory.md R63). The table is a parameter (R147). -/

namespace Sys2Proof.Machine

/-- The initial value of the accumulator (R5, R141). -/
def accInit : Word := 0xFFFFFFFF

/-- The table index of a byte step: `zext_32(b) ^ (acc >> 24)` (R140). -/
def crcIndex (acc : Word) (b : Byte) : Word := zext32 b ^^^ (acc >>> 24)

/-- `crc_step(acc, b)` (R140). The index is below 256, so its low 8 bits are all of it. -/
def crcStep (table : BitVec 8 → Word) (acc : Word) (b : Byte) : Word :=
  table ((crcIndex acc b).setWidth 8) ^^^ (acc <<< 8)

/-- `a_L` of R144. -/
def crcFold (table : BitVec 8 → Word) (b : List Byte) : Word := b.foldl (crcStep table) accInit

/-- `hash(b, T)` (R144). -/
def hashBytes (table : BitVec 8 → Word) (b : List Byte) : Word := ~~~ (crcFold table b)

/-- The big step of the hash phases over `BUF[0 .. LEN-1]` (R144). -/
def hashPass (cfg : Config) (s : State) : State :=
  { s with crc := hashBytes cfg.table (payload cfg s)
           acc := crcFold cfg.table (payload cfg s)
           pos := s.len }

/-- The HINIT micro-step (R141). -/
def hinitStep (s : State) : State := { s with acc := accInit, pos := 0, phase := .hash }

/-- HASH with `POS < LEN` (R142). -/
def hashByte (cfg : Config) (s : State) : State :=
  { s with acc := crcStep cfg.table s.acc (bufByte cfg s s.pos.toNat), pos := s.pos + 1, phase := .hash }

/-- HASH with `POS = LEN` (R143); the rule names a next phase for `OPL` 2 and 3 only. -/
def hashExit (s : State) : Host.Outcome State Fault Refusal :=
  if s.opl = 2 then .next { s with crc := ~~~ s.acc, phase := .finish }
  else if s.opl = 3 then .next { s with crc := ~~~ s.acc, phase := .trail }
  else .fault .noEngineStep

/-- The HASH micro-step (R142, R143). -/
def hashStep (cfg : Config) (s : State) : Host.Outcome State Fault Refusal :=
  if s.pos.toNat < s.len.toNat then
    if inBuffer cfg s.pos.toNat 1 then .next (hashByte cfg s) else .fault .bufferIndex
  else if s.pos = s.len then hashExit s
  else .fault .noEngineStep

/-- `hash` (R146) under a configuration. -/
def cmdHash (cfg : Config) (s : State) : Host.Outcome State Fault Refusal :=
  command cfg .hash (hashPass cfg) s

/-- The meaning of `hash` (R146). -/
def execHash (s : State) : Host.Outcome State Fault Refusal := cmdHash Config.platform s

/-- Four bytes of a table blob from offset `o`, made into a word by `order`. -/
def blobWord (order : Byte → Byte → Byte → Byte → Word) (blob : List Byte) (o : Nat) : Word :=
  order (blob.getD o 0) (blob.getD (o + 1) 0) (blob.getD (o + 2) 0) (blob.getD (o + 3) 0)

/-- The table of a 1024-byte blob (R63), none for a blob of another size. `order` is the parameter
`TABLE_BLOB_ORDER` of R4; with `leWord` the blob is little-endian. -/
def tableOfBlob (order : Byte → Byte → Byte → Byte → Word) (blob : List Byte) :
    Option (BitVec 8 → Word) :=
  if blob.length = 1024 then some (fun i => blobWord order blob (4 * i.toNat)) else none

end Sys2Proof.Machine
end

