-- ==== Sys2Proof/Machine/Cipher.lean ====
section
/-! DEFINITION. The Keystream Cipher (spec/40_keystream_cipher.md): the pure functions (R110 to R118),
the micro-steps KSINIT and STRIDE (R111, R116, R117), and the commands `cipher.std`, `cipher.alt`
(R120, R121). The numeric literals are the source's and are unaudited (91 N2). -/

namespace Sys2Proof.Machine

/-- The Cipher State: the words v1 to v4. -/
structure CipherState where
  v1 : Word
  v2 : Word
  v3 : Word
  v4 : Word
  deriving DecidableEq, Repr

/-- The multiplier of R110. -/
def ksMul : Word := 0x1DA597

/-- The additive constant of R110's second line. -/
def ksAdd2 : Word := 0x0085C9C2

/-- The additive constant of R110's third line. -/
def ksAdd3 : Word := 0x010B9384

/-- The additive constant of R110's fourth line. -/
def ksAdd4 : Word := 0x01915D46

/-- `ks_init(seed)` (R110), for every seed. -/
def ksInit (seed : Word) : CipherState :=
  let v1 := (seed / 32) ^^^ (seed * ksMul)
  let v2 := (v1 / 32 + ksAdd2) ^^^ (v1 * ksMul)
  let v3 := (v2 / 32 + ksAdd3) ^^^ (v2 * ksMul)
  let v4 := (v3 / 32 + ksAdd4) ^^^ (v3 * ksMul)
  { v1 := v1, v2 := v2, v3 := v3, v4 := v4 }

/-- The keystream word `v5` of `ks_next` (R112); both uses of `v1` are the updated one, `t`. -/
def ksOut (c : CipherState) : Word :=
  let t := (c.v1 * 2048) ^^^ c.v1
  c.v4 ^^^ (((c.v4 / 2048) ^^^ t) / 256) ^^^ t

/-- The next state of `ks_next` (R112): all four words shift at once. -/
def ksShift (c : CipherState) : CipherState :=
  { v1 := c.v2, v2 := c.v3, v3 := c.v4, v4 := ksOut c }

/-- `S_j` of R114: the state before stride `j`. -/
def ksState (seed : Word) : Nat → CipherState
  | 0 => ksInit seed
  | j + 1 => ksShift (ksState seed j)

/-- `ks_word(s, j)` (R114). -/
def ksWord (seed : Word) (j : Nat) : Word := ksOut (ksState seed j)

/-- Keystream byte number `i` (R114). -/
def ksByte (seed : Word) (i : Nat) : Byte := lane (ksWord seed (i / 4)) (i % 4)

/-- A byte list against the keystream from keystream byte `i` on. -/
def cipherFrom (seed : Word) (i : Nat) : List Byte → List Byte
  | [] => []
  | b :: bs => (b ^^^ ksByte seed i) :: cipherFrom seed (i + 1) bs

/-- `cipher(b, s)` (R118), for every seed (90_conflicts C1). -/
def cipher (b : List Byte) (seed : Word) : List Byte := cipherFrom seed 0 b

/-- The number of strides of a pass over `n` bytes, `ceil(n / 4)` (R117). -/
def strides (n : Nat) : Nat := (n + 3) / 4

/-- The four cipher registers take the words of `c`. -/
def setCipher (c : CipherState) (s : State) : State :=
  { s with v1 := c.v1, v2 := c.v2, v3 := c.v3, v4 := c.v4 }

/-- The four cipher registers. -/
def cipherState (s : State) : CipherState := { v1 := s.v1, v2 := s.v2, v3 := s.v3, v4 := s.v4 }

/-- The big step of a whole cipher pass over `BUF[0 .. LEN-1]` (R118). -/
def cipherPass (cfg : Config) (seed : Word) (s : State) : State :=
  let n := s.len.toNat
  let t := setCipher (ksState seed (strides n)) (memWrite cfg s 0 (cipher (payload cfg s) seed))
  { t with seed := seed, pos := BitVec.ofNat 32 (4 * strides n), rem := 0 }

/-- The KSINIT micro-step (R111). -/
def ksinitStep (s : State) : State :=
  { setCipher (ksInit (seedOf s.vl)) s with seed := seedOf s.vl, pos := 0, rem := s.len, phase := .stride }

/-- The mixer on the enabled lanes, from lane `k` on (R115). -/
def mixFrom (v5 : Word) (k : Nat) : List Byte → List Byte
  | [] => []
  | b :: bs => (b ^^^ lane v5 k) :: mixFrom v5 (k + 1) bs

/-- The number of enabled lanes, `min(4, REM)` (R115). -/
def lanes (s : State) : Nat := min 4 s.rem.toNat

/-- One stride (R116). -/
def strideBody (cfg : Config) (s : State) : State :=
  let v5 := ksOut (cipherState s)
  let t := memWrite cfg s s.pos.toNat (mixFrom v5 0 (memRead cfg s s.pos.toNat (lanes s)))
  { setCipher (ksShift (cipherState s)) t with
    pos := s.pos + 4, rem := s.rem - BitVec.ofNat 32 (lanes s), phase := .stride }

/-- STRIDE's exit (R117). -/
def strideExit (s : State) : State := { s with phase := if s.opl = 4 then .post else .finish }

/-- The STRIDE micro-step (R116, R117). -/
def strideStep (cfg : Config) (s : State) : Host.Outcome State Fault Refusal :=
  if s.rem = 0 then .next (strideExit s)
  else if inBuffer cfg s.pos.toNat (lanes s) then .next (strideBody cfg s)
  else .fault .bufferIndex

/-- `cipher.std` (R120) under a configuration. -/
def cmdCipherStd (cfg : Config) (s : State) : Host.Outcome State Fault Refusal :=
  command cfg .cipherStd (cipherPass cfg seedStd) s

/-- `cipher.alt` (R121) under a configuration. -/
def cmdCipherAlt (cfg : Config) (s : State) : Host.Outcome State Fault Refusal :=
  command cfg .cipherAlt (cipherPass cfg seedAlt) s

/-- The meaning of `cipher.std` (R120). -/
def execCipherStd (s : State) : Host.Outcome State Fault Refusal := cmdCipherStd Config.platform s

/-- The meaning of `cipher.alt` (R121). -/
def execCipherAlt (s : State) : Host.Outcome State Fault Refusal := cmdCipherAlt Config.platform s

end Sys2Proof.Machine
end

