-- ==== Sys2Proof/Machine/Format.lean ====
section
/-! DEFINITION. The variant policy (spec/42_format_orchestration.md): the micro-steps TRAIL and POST
(R161, R164, R167, R170), the four commands (R160, R163, R166, R169), and the commands as functions on
byte lists (R171). -/

namespace Sys2Proof.Machine

/-- TRAIL's big step, standard: the trailer is appended (R161). -/
def appendTrailer (cfg : Config) (s : State) : State :=
  { memWrite cfg s s.len.toNat (leBytes s.crc) with len := s.len + 4 }

/-- TRAIL's big step, alternate: the trailer overwrites the last four bytes (R164). -/
def overlayTrailer (cfg : Config) (s : State) : State :=
  memWrite cfg s (s.len.toNat - 4) (leBytes s.crc)

/-- POST's big step, standard: `LEN <- LEN - 4` (R167). -/
def dropTrailer (s : State) : State := { s with len := s.len - 4 }

/-- POST's big step, alternate: the last four bytes become 0 (R170). -/
def zeroTrailer (cfg : Config) (s : State) : State :=
  memWrite cfg s (s.len.toNat - 4) [0, 0, 0, 0]

/-- The TRAIL micro-step (R161, R164); it faults where one of the four indices does not exist. -/
def trailStep (cfg : Config) (s : State) : Host.Outcome State Fault Refusal :=
  if s.vl = 0 then
    if inBuffer cfg s.len.toNat 4 then .next { appendTrailer cfg s with phase := .ksinit }
    else .fault .bufferIndex
  else if 4 ≤ s.len.toNat ∧ inBuffer cfg 0 s.len.toNat then
    .next { overlayTrailer cfg s with phase := .ksinit }
  else .fault .bufferIndex

/-- The POST micro-step (R167, R170). -/
def postStep (cfg : Config) (s : State) : Host.Outcome State Fault Refusal :=
  if s.vl = 0 then
    if 4 ≤ s.len.toNat then .next { dropTrailer s with phase := .finish } else .fault .noEngineStep
  else if 4 ≤ s.len.toNat ∧ inBuffer cfg 0 s.len.toNat then
    .next { zeroTrailer cfg s with phase := .finish }
  else .fault .bufferIndex

/-- `encrypt.std` (R160) under a configuration: checksum, append, cipher pass over the longer buffer. -/
def cmdEncryptStd (cfg : Config) (s : State) : Host.Outcome State Fault Refusal :=
  command cfg .encryptStd
    (fun t => cipherPass cfg seedStd (appendTrailer cfg (hashPass cfg t))) s

/-- `encrypt.alt` (R163) under a configuration; the checksum covers all `LEN` bytes (R165). -/
def cmdEncryptAlt (cfg : Config) (s : State) : Host.Outcome State Fault Refusal :=
  command cfg .encryptAlt
    (fun t => cipherPass cfg seedAlt (overlayTrailer cfg (hashPass cfg t))) s

/-- `decrypt.std` (R166) under a configuration; nothing is verified (R168). -/
def cmdDecryptStd (cfg : Config) (s : State) : Host.Outcome State Fault Refusal :=
  command cfg .decryptStd (fun t => dropTrailer (cipherPass cfg seedStd t)) s

/-- `decrypt.alt` (R169) under a configuration; nothing is verified (R168). -/
def cmdDecryptAlt (cfg : Config) (s : State) : Host.Outcome State Fault Refusal :=
  command cfg .decryptAlt (fun t => zeroTrailer cfg (cipherPass cfg seedAlt t)) s

/-- The meaning of `encrypt.std` (R160). -/
def execEncryptStd (s : State) : Host.Outcome State Fault Refusal := cmdEncryptStd Config.platform s

/-- The meaning of `encrypt.alt` (R163). -/
def execEncryptAlt (s : State) : Host.Outcome State Fault Refusal := cmdEncryptAlt Config.platform s

/-- The meaning of `decrypt.std` (R166). -/
def execDecryptStd (s : State) : Host.Outcome State Fault Refusal := cmdDecryptStd Config.platform s

/-- The meaning of `decrypt.alt` (R169). -/
def execDecryptAlt (s : State) : Host.Outcome State Fault Refusal := cmdDecryptAlt Config.platform s

/-- `encrypt_std(P)` (R171). -/
def encryptStdBytes (table : BitVec 8 → Word) (p : List Byte) : List Byte :=
  cipher (p ++ leBytes (hashBytes table p)) seedStd

/-- `encrypt_alt(P)` (R171), for a list of at least four bytes. -/
def encryptAltBytes (table : BitVec 8 → Word) (p : List Byte) : List Byte :=
  cipher (p.take (p.length - 4) ++ leBytes (hashBytes table p)) seedAlt

/-- `decrypt_std(C)` (R171), for a list of at least four bytes. -/
def decryptStdBytes (c : List Byte) : List Byte := (cipher c seedStd).take (c.length - 4)

/-- `decrypt_alt(C)` (R171), for a list of at least four bytes. -/
def decryptAltBytes (c : List Byte) : List Byte :=
  (cipher c seedAlt).take (c.length - 4) ++ [0, 0, 0, 0]

end Sys2Proof.Machine
end

