-- ==== Sys2Proof/Machine/Dispatch.lean ====
section
/-! DEFINITION. `exec`: one arm per command, each one direct call of its meaning. -/

namespace Sys2Proof.Machine

def exec (i : Instr) (s : State) : Host.Outcome State Fault Refusal :=
  match i with
  | .cipherStd => Sys2Proof.Machine.execCipherStd s
  | .cipherAlt => Sys2Proof.Machine.execCipherAlt s
  | .hash => Sys2Proof.Machine.execHash s
  | .encryptStd => Sys2Proof.Machine.execEncryptStd s
  | .encryptAlt => Sys2Proof.Machine.execEncryptAlt s
  | .decryptStd => Sys2Proof.Machine.execDecryptStd s
  | .decryptAlt => Sys2Proof.Machine.execDecryptAlt s

end Sys2Proof.Machine
end

