-- ==== Sys2Proof/Machine/Engine.lean ====
section
/-! DEFINITION. The engine's micro-step form (spec/10_state.md R31): one step by `PHASE`, a run of
steps, and how many steps each command takes (spec/70_reset_and_hazards.md R231). -/

namespace Sys2Proof.Machine

/-- One engine micro-step (R31); an idle engine has none and the state stays (R206). -/
def engineStep (cfg : Config) (s : State) : Host.Outcome State Fault Refusal :=
  match s.phase with
  | .idle => .next s
  | .hinit => .next (hinitStep s)
  | .hash => hashStep cfg s
  | .trail => trailStep cfg s
  | .ksinit => .next (ksinitStep s)
  | .stride => strideStep cfg s
  | .post => postStep cfg s
  | .finish => .next (finishStep s)

/-- `n` engine micro-steps, stopping at a fault. -/
def engineRun (cfg : Config) : Nat → State → Host.Outcome State Fault Refusal
  | 0, s => .next s
  | n + 1, s =>
    match engineStep cfg s with
    | .next t => engineRun cfg n t
    | .fault r => .fault r
    | .refused r => .refused r

/-- The number of micro-steps from acceptance to idle, `L` the length at acceptance (R231). -/
def microSteps (i : Instr) (L : Nat) : Nat :=
  match i with
  | .hash => L + 3
  | .cipherStd => strides L + 3
  | .cipherAlt => strides L + 3
  | .encryptStd => L + strides L + 7
  | .encryptAlt => L + strides L + 6
  | .decryptStd => strides L + 4
  | .decryptAlt => strides L + 4

end Sys2Proof.Machine
end

