-- ==== Sys2Proof/Machine/Ports.lean ====
section
/-! DEFINITION. The host's side: the five port operations (spec/20_memory.md R70 to R76), the reset
input (spec/70_reset_and_hazards.md R210, R211), and one event of the host's side. -/

namespace Sys2Proof.Machine

/-- A host read returned `r`. -/
def reply (r : Reply) (s : State) : State := { s with replies := s.replies ++ [r] }

/-- A host read returned an unspecified word: a fresh free value (R73, 93 U2). -/
def replyFreeWord (cfg : Config) (s : State) : State :=
  { reply (.word (cfg.freeWord s.draws)) s with draws := s.draws + 1 }

/-- A host read returned an unspecified byte: a fresh free value (R73, 93 U2). -/
def replyFreeByte (cfg : Config) (s : State) : State :=
  { reply (.byte (cfg.freeByte s.draws)) s with draws := s.draws + 1 }

/-- The content of register `r` (R25): `CMD` and the reserved numbers read 0. -/
def regWord (cfg : Config) (r : BitVec 4) (s : State) : Word :=
  if r = 1 then s.status.toWord
  else if r = 2 then s.len
  else if r = 3 then s.crc
  else if r = 4 then s.v1
  else if r = 5 then s.v2
  else if r = 6 then s.v3
  else if r = 7 then s.v4
  else if r = 8 then s.pos
  else if r = 9 then s.rem
  else if r = 10 then s.seed
  else if r = 11 then BitVec.ofNat 32 cfg.bufCap
  else 0

/-- The registers whose read is exact also while busy (R73): `CMD`, `STATUS`, `CAP`, the reserved
numbers. -/
def exactWhileBusy (r : BitVec 4) : Bool := r == 0 || r == 1 || r == 11 || r.toNat ≥ 12

/-- `HostReadReg(r)` (R70, R71, R73). -/
def hostReadReg (cfg : Config) (r : BitVec 4) (s : State) : State :=
  if s.status.busy ∧ exactWhileBusy r = false then replyFreeWord cfg s
  else reply (.word (regWord cfg r s)) s

/-- A write of `n` to `LEN` (R28, R75, R186). -/
def writeLen (cfg : Config) (n : Word) (s : State) : State :=
  if s.status.busy then dropWhileBusy s
  else if n.toNat ≤ cfg.bufCap then { s with len := n }
  else refuse .capacity s

/-- `HostWriteReg(r, v)` (R70): `CMD`, `LEN`, or dropped without a flag (R25, R75). -/
def hostWriteReg (cfg : Config) (r : BitVec 4) (v : Word) (s : State) : State :=
  if r = 0 then issue cfg v s
  else if r = 2 then writeLen cfg v s
  else s

/-- `HostReadBuf(i)` (R72, R73, R76). -/
def hostReadBuf (cfg : Config) (i : Word) (s : State) : State :=
  if s.status.busy then replyFreeByte cfg s
  else reply (.byte (if i.toNat < cfg.bufCap then bufByte cfg s i.toNat else 0)) s

/-- `HostWriteBuf(i, b)` (R72, R75, R76, R186). -/
def hostWriteBuf (cfg : Config) (i : Word) (b : Byte) (s : State) : State :=
  if s.status.busy then dropWhileBusy s
  else if i.toNat < cfg.bufCap then memWrite cfg s i.toNat [b]
  else refuse .capacity s

/-- What the table port reads at `i`: `T[i]` (R74), or a free word where the last reset sampled
`TABLE_VALID = 0`, which is what `FATAL` says (R184, 93 U3). Either way repeated reads agree (R67). -/
def tableWordRead (cfg : Config) (i : BitVec 8) (s : State) : Word :=
  if s.status.fatal then cfg.invalidTable s.epoch i else cfg.table i

/-- `HostReadTable(i)` (R74), at any time, without an effect (R67). -/
def hostReadTable (cfg : Config) (i : BitVec 8) (s : State) : State :=
  reply (.word (tableWordRead cfg i s)) s

/-- One host port operation (R70). -/
def hostOp (cfg : Config) (o : HostOp) (s : State) : State :=
  match o with
  | .readReg r => hostReadReg cfg r s
  | .writeReg r v => hostWriteReg cfg r v s
  | .readBuf i => hostReadBuf cfg i s
  | .writeBuf i b => hostWriteBuf cfg i b s
  | .readTable i => hostReadTable cfg i s

/-- The reset input, asserted and released (R210, R211): a running command is abandoned, every
register takes its reset value, buffer storage is unspecified anew, the strap is sampled. -/
def resetInput (tableValid : Bool) (s : State) : State :=
  State.afterReset tableValid (s.epoch + 1) s.inputs s.replies s.draws

/-- The reads that `store` makes after it has read `n` from `LEN` (R99). -/
def storeReads (n : Word) : List HostEvent :=
  (List.range n.toNat).map (fun k => .op (.readBuf (BitVec.ofNat 32 k)))

/-- The word that a read of `LEN` returns now (R70, R73). -/
def lenAsRead (cfg : Config) (s : State) : Word :=
  if s.status.busy then cfg.freeWord s.draws else s.len

/-- The word `w` is written to `CMD` as one atomic event; `ex` is the meaning of the commands. -/
def runWord (ex : Instr → State → Host.Outcome State Fault Refusal) (w : Word) (s : State) :
    Host.Outcome State Fault Refusal :=
  match decode w with
  | .ok i => ex i s
  | .error _ => .next (issueIllegal s)

/-- The first event `e` of the host's side happens; `s` has the rest of them as `inputs`. -/
def hostEvent (cfg : Config) (ex : Instr → State → Host.Outcome State Fault Refusal)
    (e : HostEvent) (s : State) : Host.Outcome State Fault Refusal :=
  match e with
  | .op o => .next (hostOp cfg o s)
  | .run w => runWord ex w s
  | .pass => engineStep cfg s
  | .wait => if s.status.busy then engineStep cfg { s with inputs := .wait :: s.inputs } else .next s
  | .store =>
    .next (hostReadReg cfg 2 { s with inputs := storeReads (lenAsRead cfg s) ++ s.inputs })
  | .reset v => .next (resetInput v s)

/-- What happens next: the host's first event, or, when the host makes no further access, the
engine's next micro-step (R230: a busy engine eventually takes it). -/
def stepWith (cfg : Config) (ex : Instr → State → Host.Outcome State Fault Refusal) (s : State) :
    Host.Outcome State Fault Refusal :=
  match s.inputs with
  | [] => engineStep cfg s
  | e :: rest => hostEvent cfg ex e { s with inputs := rest }

end Sys2Proof.Machine
end

