-- ==== Sys2Proof/Machine/Step.lean ====
section
/-! DEFINITION. The step of the machine, and where it takes its next command from. -/

namespace Sys2Proof.Machine

/-- One step: the host's next event or the engine's next micro-step (`stepWith`), commands by `exec`. -/
def step (s : State) : Host.Outcome State Fault Refusal := stepWith Config.platform exec s

/-- `s` with the command word `w` as the next thing the host writes to `CMD`, as one atomic event. The
block fetches nothing (10_state R30): a command is delivered by a host write. -/
def State.withFetchWord (s : State) (nbits w : Nat) : State :=
  { s with inputs := .run (BitVec.ofNat 32 (w % 2 ^ nbits)) :: s.inputs }

end Sys2Proof.Machine
end

