-- ==== Sys2Proof/Safety.lean ====
section
/-! DEFINITION. What holds in every reachable state (spec/10_state.md R27 to R29, spec/30_encoding.md
R96, spec/20_memory.md R61), and what a good end of a host script is (spec/70_reset_and_hazards.md
R222). -/

namespace Sys2Proof.Machine

/-- The trailer of an `encrypt` in progress has its place: four more bytes of storage for the standard
variant, four bytes of buffer for the alternate one (R96). -/
abbrev TrailerFits (cfg : Config) (s : State) : Prop :=
  s.opl = 3 → if s.vl = 0 then s.len.toNat + 4 ≤ cfg.bufCap else 4 ≤ s.len.toNat

/-- Where a cipher pass stands: `POS` is a multiple of 4 (R66), and the bytes before `POS` and the
`REM` bytes from it on make up the buffer, but for the rounding up after the last stride (R29). -/
abbrev PassPosition (s : State) : Prop :=
  s.pos.toNat % 4 = 0 ∧
    (if s.rem = 0 then s.pos.toNat = 4 * strides s.len.toNat
      else s.pos.toNat + s.rem.toNat = s.len.toNat)

/-- A phase of the cipher pass belongs to `cipher`, `encrypt` or `decrypt`, and a `decrypt` has four
bytes to drop or zero (R31, R96). -/
abbrev PassCommand (s : State) : Prop :=
  (s.opl = 1 ∨ s.opl = 3 ∨ s.opl = 4) ∧ (s.opl = 4 → 4 ≤ s.len.toNat)

/-- What each phase may rely on (R31, R96, R143, R167). -/
def PhaseInv (cfg : Config) (s : State) : Prop :=
  match s.phase with
  | .idle => True
  | .hinit => (s.opl = 2 ∨ s.opl = 3) ∧ TrailerFits cfg s
  | .hash => (s.opl = 2 ∨ s.opl = 3) ∧ TrailerFits cfg s ∧ s.pos.toNat ≤ s.len.toNat
  | .trail => s.opl = 3 ∧ TrailerFits cfg s
  | .ksinit => PassCommand s
  | .stride => PassCommand s ∧ PassPosition s
  | .post => s.opl = 4 ∧ 4 ≤ s.len.toNat
  | .finish => True

/-- The invariant of the block. -/
structure Inv (cfg : Config) (s : State) : Prop where
  /-- `LEN <= BUFCAP` (R28). -/
  lenBound : s.len.toNat ≤ cfg.bufCap
  /-- `POS` never wraps: at most 3 beyond a length (R29). -/
  posBound : s.pos.toNat ≤ cfg.bufCap + 3
  /-- `BUSY = 1` implies `DONE = 0` and `ERR = 0` (R27). -/
  busyClean : s.status.busy = true → s.status.done = false ∧ s.status.err = .noRefusal
  /-- `PHASE = IDLE` exactly when `BUSY = 0` (R27). -/
  idleIff : s.phase = .idle ↔ s.status.busy = false
  /-- No command runs on a block whose table is invalid (R184). -/
  fatalIdle : s.status.fatal = true → s.status.busy = false
  /-- `SEED` is one of the two seeds, or 0 while no cipher pass has begun (R29, R91). -/
  seedLegal : s.seed = 0 ∨ s.seed = seedStd ∨ s.seed = seedAlt
  /-- Buffer storage is in its canonical form. -/
  bufWf : Memory.wf (unwritten cfg s) s.buf
  /-- Only existing indices hold bytes (R60, R61). -/
  bufBound : ∀ c ∈ s.buf, c.1 < cfg.bufCap
  /-- The phase's own condition. -/
  phaseInv : PhaseInv cfg s

/-- A host script has ended (R222): its last host operation has returned, so none is left, and the block
is not busy. DESIGN CHOICE (log 19): a script that did not wait for its last command counts as ended once
the engine is idle by itself; R222 speaks of it only while the block is busy. -/
abbrev ScriptEnded (s : State) : Prop := s.inputs = [] ∧ s.status.busy = false

/-- The end of a well-formed script (R222): `BUSY = 0`, `WRBUSY = 0`, and `ERR = 0` unless the script
provoked a refusal on purpose, which `provoked` says. -/
abbrev GoodEnd (provoked : Bool) (s : State) : Prop :=
  ScriptEnded s ∧ s.status.wrbusy = false ∧ (provoked = false → s.status.err = .noRefusal)

/-- The block is ready for a command: idle, table valid, and the length within storage (R96). -/
abbrev Ready (cfg : Config) (s : State) : Prop :=
  s.status.busy = false ∧ s.status.fatal = false ∧ s.len.toNat ≤ cfg.bufCap

/-- `STATUS` after a completed command (R95, R97): only `WRBUSY` is as before. -/
def statusDone (f : Status) : Status :=
  { busy := false, done := true, fatal := f.fatal, wrbusy := f.wrbusy, err := .noRefusal }

/-- `POS` after a cipher pass over `n` bytes (R118): `4 * ceil(n / 4)`. -/
def posAfter (n : Nat) : Word := BitVec.ofNat 32 (4 * ((n + 3) / 4))

end Sys2Proof.Machine
end

