-- ==== Sys2Proof/Certificates/Slice0/Obligations.lean ====
section
/-! DEFINITION. The statements for the provers. `Config.platform` is made of opaque constants, so each
statement holds for every configuration that spec/00_scope.md R4 allows. Where a result needs buffer
storage in its canonical form, that is a premise: `StepKeepsTheInvariant` says every step keeps it. -/

open Sys2Proof Sys2Proof.Machine

/-! ### Reset -/

/-- 10_state R50, 70_reset R210: every piece of state right after reset; `BUF` holds unspecified bytes
(the free value `BUF_RESET`). The model's own fields are not part of the claim. -/
def Obligations.ResetValuesOfEveryRegister : Prop :=
  State.reset.v1 = 0 ∧ State.reset.v2 = 0 ∧ State.reset.v3 = 0 ∧ State.reset.v4 = 0 ∧
  State.reset.acc = 0 ∧ State.reset.crc = 0 ∧ State.reset.len = 0 ∧ State.reset.seed = 0 ∧
  State.reset.pos = 0 ∧ State.reset.rem = 0 ∧ State.reset.status.busy = false ∧
  State.reset.status.done = false ∧ State.reset.status.wrbusy = false ∧
  State.reset.status.err = .noRefusal ∧
  State.reset.status.fatal = !Config.platform.tableValid ∧
  State.reset.phase = .idle ∧ State.reset.opl = 0 ∧ State.reset.vl = 0 ∧
  ∀ a, bufByte Config.platform State.reset a = Config.platform.bufReset State.reset.epoch a

/-- 70_reset R210, R211: the reset input, from any state, busy or not: all registers at their reset
values, `FATAL` from the strap, the running command gone, `BUF` unspecified anew. How the reset reaches
the block (an event that carries the strap's level) and that the host's queue and what it has read stay
are the model's choice (log 8). -/
def Obligations.ResetInputFromAnyState : Prop :=
  ∀ (s : State) (v : Bool) (rest : List HostEvent), s.inputs = .reset v :: rest →
    ∃ t, step s = .next t ∧
      t.v1 = 0 ∧ t.v2 = 0 ∧ t.v3 = 0 ∧ t.v4 = 0 ∧ t.acc = 0 ∧ t.crc = 0 ∧ t.len = 0 ∧ t.seed = 0 ∧
      t.pos = 0 ∧ t.rem = 0 ∧ t.phase = .idle ∧ t.opl = 0 ∧ t.vl = 0 ∧
      t.status = { busy := false, done := false, fatal := !v, wrbusy := false, err := .noRefusal } ∧
      (∀ a, bufByte Config.platform t a = Config.platform.bufReset (s.epoch + 1) a) ∧
      t.inputs = rest ∧ t.replies = s.replies ∧ t.draws = s.draws

/-! ### Encoding -/

/-- 30_encoding R92, R93: words written out from the spec's table decode to their commands, and words
of each illegal class are rejected. A sanity statement. -/
def Obligations.SpecWordsDecodeAsTheSpecSays : Prop :=
  decode 0x00000001#32 = .ok .cipherStd ∧ decode 0x00000011#32 = .ok .cipherAlt ∧
  decode 0x00000002#32 = .ok .hash ∧ decode 0x00000003#32 = .ok .encryptStd ∧
  decode 0x00000013#32 = .ok .encryptAlt ∧ decode 0x00000004#32 = .ok .decryptStd ∧
  decode 0x00000014#32 = .ok .decryptAlt ∧
  decode 0x00000000#32 = .error .illegalOp ∧ decode 0x0000000F#32 = .error .illegalOp ∧
  decode 0x00000012#32 = .error .hashVariant ∧ decode 0x00000021#32 = .error .reservedBits

/-- 30_encoding R92: "the word is the only encoding of it". Over all 2^32 words, decoding gives a
command exactly at that command's own word. -/
def Obligations.DecodeAndEncodeAgreeOnAllWords : Prop :=
  ∀ (w : Word) (i : Instr), decode w = .ok i ↔ w = encode i

/-- 30_encoding R93: exactly the words with `OP` 0 or 5 to 15, `hash` with `V = 1`, or a reserved bit
set are illegal, and on an idle block with a valid table an illegal word is refused with code ILLEGAL
(1): `ERR <- 1`, `DONE <- 0` and nothing else. -/
def Obligations.IllegalWordsAreRefusedWithCodeIllegal : Prop :=
  ∀ w : Word,
    ((∃ e, decode w = .error e) ↔
      (w.extractLsb' 0 4 = 0 ∨ 5 ≤ (w.extractLsb' 0 4).toNat ∨
        (w.extractLsb' 0 4 = 2 ∧ w.extractLsb' 4 1 = 1) ∨ w.extractLsb' 5 27 ≠ 0)) ∧
    ((∃ e, decode w = .error e) → ∀ s : State, s.status.busy = false → s.status.fatal = false →
      hostOp Config.platform (.writeReg 0 w) s =
        { s with status := { s.status with done := false, err := .illegal } })

/-! ### Acceptance, refusals, STATUS -/

/-- 30_encoding R95: a `CMD` write when idle, for every word: the order of the checks, what a refusal
changes and what acceptance changes. -/
def Obligations.CommandIssueFollowsTheAcceptanceOrder : Prop :=
  ∀ (s : State) (w : Word), s.status.busy = false →
    hostOp Config.platform (.writeReg 0 w) s =
      if s.status.fatal = true then
        { s with status := { s.status with done := false, err := .table } }
      else if ¬ (w = 0x1 ∨ w = 0x11 ∨ w = 0x2 ∨ w = 0x3 ∨ w = 0x13 ∨ w = 0x4 ∨ w = 0x14) then
        { s with status := { s.status with done := false, err := .illegal } }
      else if w.extractLsb' 0 4 = 4 ∧ s.len.toNat < 4 then
        { s with status := { s.status with done := false, err := .length } }
      else if w = 0x13 ∧ s.len.toNat < 4 then
        { s with status := { s.status with done := false, err := .length } }
      else if w = 0x3 ∧ s.len.toNat + 4 > Config.platform.bufCap then
        { s with status := { s.status with done := false, err := .capacity } }
      else
        { s with
          status := { s.status with done := false, err := .noRefusal, busy := true }
          opl := w.extractLsb' 0 4
          vl := w.extractLsb' 4 1
          phase := if w.extractLsb' 0 4 = 2 ∨ w.extractLsb' 0 4 = 3 then .hinit else .ksinit }

/-- 60_exceptions R183, R184, R185, R187: where a command is refused instead of run: TABLE (code 4) for
every command while `FATAL = 1`; LENGTH (2) for `decrypt.*` and `encrypt.alt` with `LEN < 4`; CAPACITY
(3) for `encrypt.std` without room for the trailer; only `DONE` and `ERR` change. While busy a command is
dropped and only `WRBUSY` changes. That all this is one atomic event of `exec` is the model's choice
(log 5). -/
def Obligations.RefusedCommandsChangeOnlyStatus : Prop :=
  (∀ s : State, s.status.busy = false →
    (s.status.fatal = true → ∀ i, exec i s =
      .next { s with status := { s.status with done := false, err := .table } }) ∧
    (s.status.fatal = false → s.len.toNat < 4 →
      ∀ i, (i = .decryptStd ∨ i = .decryptAlt ∨ i = .encryptAlt) → exec i s =
        .next { s with status := { s.status with done := false, err := .length } }) ∧
    (s.status.fatal = false → s.len.toNat + 4 > Config.platform.bufCap →
      exec .encryptStd s =
        .next { s with status := { s.status with done := false, err := .capacity } })) ∧
  (∀ s : State, s.status.busy = true → ∀ i, exec i s =
    .next { s with status := { s.status with wrbusy := true } })

/-- 20_memory R75, 60_exceptions R187: writes of `CMD`, `LEN` and `BUF` while busy are dropped and set
`WRBUSY`; writes to the other register numbers are dropped without a flag, busy or idle. -/
def Obligations.WritesWhileBusyAreDropped : Prop :=
  (∀ s : State, s.status.busy = true →
    (∀ v, hostOp Config.platform (.writeReg 0 v) s =
      { s with status := { s.status with wrbusy := true } }) ∧
    (∀ v, hostOp Config.platform (.writeReg 2 v) s =
      { s with status := { s.status with wrbusy := true } }) ∧
    (∀ i b, hostOp Config.platform (.writeBuf i b) s =
      { s with status := { s.status with wrbusy := true } })) ∧
  (∀ (s : State) (r : BitVec 4) (v : Word), r ≠ 0 → r ≠ 2 →
    hostOp Config.platform (.writeReg r v) s = s)

/-- 10_state R27, 60_exceptions R180: the layout of `STATUS` as a word, and the five codes of `ERR`. -/
def Obligations.StatusWordLayout : Prop :=
  ∀ f : Status,
    f.toWord.getLsbD 0 = f.busy ∧ f.toWord.getLsbD 1 = f.done ∧ f.toWord.getLsbD 2 = f.fatal ∧
    f.toWord.getLsbD 3 = f.wrbusy ∧ f.toWord.extractLsb' 4 4 = f.err.code ∧
    f.toWord.extractLsb' 8 24 = 0 ∧
    f.err.code = (match f.err with
      | .noRefusal => 0
      | .illegal => 1
      | .length => 2
      | .capacity => 3
      | .table => 4)

/-! ### Host ports -/

/-- 10_state R25, 20_memory R70: what each register number reads when idle; a read changes nothing. -/
def Obligations.RegisterReadsWhenIdle : Prop :=
  ∀ s : State, s.status.busy = false → ∀ r : BitVec 4,
    hostOp Config.platform (.readReg r) s =
      { s with replies := s.replies ++
        [.word ([0, s.status.toWord, s.len, s.crc, s.v1, s.v2, s.v3, s.v4, s.pos, s.rem, s.seed,
          BitVec.ofNat 32 Config.platform.bufCap, 0, 0, 0, 0].getD r.toNat 0)] }

/-- 20_memory R73: reads while busy. `CMD`, `STATUS`, `CAP` and the reserved numbers are exact, and so
is the table port, in every state that meets the invariant (a busy block has a valid table there); every
other register and every buffer byte reads as a free value, and nothing of the block changes. The free
values and their counter `draws` are the model's (log 3). -/
def Obligations.ReadsWhileBusy : Prop :=
  ∀ s : State, s.status.busy = true →
    (∀ r : BitVec 4, r = 0 ∨ 12 ≤ r.toNat →
      hostOp Config.platform (.readReg r) s = { s with replies := s.replies ++ [.word 0] }) ∧
    hostOp Config.platform (.readReg 1) s =
      { s with replies := s.replies ++ [.word s.status.toWord] } ∧
    hostOp Config.platform (.readReg 11) s =
      { s with replies := s.replies ++ [.word (BitVec.ofNat 32 Config.platform.bufCap)] } ∧
    (∀ r : BitVec 4, 2 ≤ r.toNat → r.toNat ≤ 10 →
      hostOp Config.platform (.readReg r) s =
        { s with replies := s.replies ++ [.word (Config.platform.freeWord s.draws)],
                 draws := s.draws + 1 }) ∧
    (∀ i, hostOp Config.platform (.readBuf i) s =
      { s with replies := s.replies ++ [.byte (Config.platform.freeByte s.draws)],
               draws := s.draws + 1 }) ∧
    (Inv Config.platform s → ∀ i, hostOp Config.platform (.readTable i) s =
      { s with replies := s.replies ++ [.word (Config.platform.table i)] })

/-- 20_memory R74, R67, 93 U3: the table port returns the table's word, and where the last reset found
the table invalid an unspecified word, the same at each read until the next reset; a read changes
nothing. That `FATAL` stands for the strap, and the free value, are the model's choice (log 4). -/
def Obligations.TableReads : Prop :=
  ∀ (s : State) (i : BitVec 8),
    hostOp Config.platform (.readTable i) s =
      if s.status.fatal = true then
        { s with replies := s.replies ++ [.word (Config.platform.invalidTable s.epoch i)] }
      else { s with replies := s.replies ++ [.word (Config.platform.table i)] }

/-- 20_memory R67: when idle, a read of any space changes nothing of the block, and repeating it returns
the same value, with an invalid table too. -/
def Obligations.IdleReadsRepeat : Prop :=
  ∀ (s : State) (o : HostOp), s.status.busy = false →
    ((∃ r, o = .readReg r) ∨ (∃ i, o = .readBuf i) ∨ (∃ i, o = .readTable i)) →
    ∃ v, hostOp Config.platform o s = { s with replies := s.replies ++ [v] } ∧
      hostOp Config.platform o (hostOp Config.platform o s) =
        { s with replies := s.replies ++ [v, v] }

/-- 20_memory R67: writing the same value to `LEN`, or the same byte to `BUF`, twice equals once, busy or
idle, in range or not. -/
def Obligations.LenAndBufWritesAreIdempotent : Prop :=
  (∀ (s : State) (n : Word),
    hostOp Config.platform (.writeReg 2 n) (hostOp Config.platform (.writeReg 2 n) s) =
      hostOp Config.platform (.writeReg 2 n) s) ∧
  (∀ (s : State) (i : Word) (b : Byte), Memory.wf (unwritten Config.platform s) s.buf →
    hostOp Config.platform (.writeBuf i b) (hostOp Config.platform (.writeBuf i b) s) =
      hostOp Config.platform (.writeBuf i b) s)

/-- 10_state R28, 60_exceptions R186: a `LEN` write when idle. -/
def Obligations.LenWritesWhenIdle : Prop :=
  ∀ (s : State) (n : Word), s.status.busy = false →
    hostOp Config.platform (.writeReg 2 n) s =
      if n.toNat ≤ Config.platform.bufCap then { s with len := n }
      else { s with status := { s.status with err := .capacity } }

/-- 20_memory R72, R76: buffer port when idle: a write changes one byte of `BUF` and nothing else, or is
dropped with `ERR <- 3`; a read returns the byte, or 0 beyond storage, and changes nothing. -/
def Obligations.BufferPortWhenIdle : Prop :=
  ∀ (s : State) (i : Word), s.status.busy = false →
    (i.toNat < Config.platform.bufCap → Memory.wf (unwritten Config.platform s) s.buf → ∀ b : Byte,
      ∃ m, hostOp Config.platform (.writeBuf i b) s = { s with buf := m } ∧
        ∀ a, bufByte Config.platform { s with buf := m } a =
          if a = i.toNat then b else bufByte Config.platform s a) ∧
    (Config.platform.bufCap ≤ i.toNat → ∀ b : Byte,
      hostOp Config.platform (.writeBuf i b) s =
        { s with status := { s.status with err := .capacity } }) ∧
    hostOp Config.platform (.readBuf i) s =
      { s with replies := s.replies ++
        [.byte (if i.toNat < Config.platform.bufCap then bufByte Config.platform s i.toNat else 0)] }

/-! ### The keystream cipher -/

/-- 00_scope R9: `le_bytes` and `le_word` are inverse to each other. -/
def Obligations.LittleEndianBytesAndWordAreInverse : Prop :=
  (∀ w : Word, leWord (lane w 0) (lane w 1) (lane w 2) (lane w 3) = w) ∧
  (∀ b0 b1 b2 b3 : Byte, leBytes (leWord b0 b1 b2 b3) = [b0, b1, b2, b3])

/-- 40_keystream_cipher R110: the initialisation over natural numbers, for every seed: the products are
cut to 32 bits, the sums never need it; and the three worked values. -/
def Obligations.KsInitOverNaturalNumbers : Prop :=
  (∀ seed : Word,
    (ksInit seed).v1.toNat = (seed.toNat / 32) ^^^ (seed.toNat * 0x1DA597 % 2 ^ 32) ∧
    (ksInit seed).v2.toNat = ((ksInit seed).v1.toNat / 32 + 0x0085C9C2) ^^^
      ((ksInit seed).v1.toNat * 0x1DA597 % 2 ^ 32) ∧
    (ksInit seed).v3.toNat = ((ksInit seed).v2.toNat / 32 + 0x010B9384) ^^^
      ((ksInit seed).v2.toNat * 0x1DA597 % 2 ^ 32) ∧
    (ksInit seed).v4.toNat = ((ksInit seed).v3.toNat / 32 + 0x01915D46) ^^^
      ((ksInit seed).v3.toNat * 0x1DA597 % 2 ^ 32)) ∧
  ksInit 0x3F6CA177 = ⟨0xB664953A, 0x572C895D, 0xAC920115, 0x02C7C12D⟩ ∧
  ksInit 0x000000B8 = ⟨0x154F048D, 0x02B3D1CD, 0x43A3D2F9, 0x617E9602⟩ ∧
  ksInit 0 = ⟨0x00000000, 0x0085C9C2, 0x65E1CABC, 0x93E5AB7F⟩

/-- 40_keystream_cipher R113: the equivalent form of `v5`, for every state. -/
def Obligations.KeystreamWordInShiftForm : Prop :=
  ∀ c : CipherState,
    ksOut c = c.v4 ^^^ (c.v4 >>> 19) ^^^ (c.v1 ^^^ (c.v1 <<< 11)) ^^^
      ((c.v1 ^^^ (c.v1 <<< 11)) >>> 8)

/-- 40_keystream_cipher R119 (a), (c), (d), (e), (f): involution, length, prefix, empty list, and the
all-zero buffer, for every list and every seed. -/
def Obligations.CipherLaws : Prop :=
  ∀ (b : List Byte) (k : Word),
    cipher (cipher b k) k = b ∧ (cipher b k).length = b.length ∧
    (∀ n, (cipher b k).take n = cipher (b.take n) k) ∧ cipher [] k = [] ∧
    (∀ n, cipher (List.replicate n 0) k = (List.range n).map (ksByte k))

/-- 40_keystream_cipher R111: the KSINIT micro-step. -/
def Obligations.KsinitMicroStep : Prop :=
  ∀ s : State, s.phase = .ksinit →
    engineStep Config.platform s =
      .next { s with
        seed := if s.vl = 0 then 0x3F6CA177 else 0x000000B8
        v1 := (ksInit (if s.vl = 0 then 0x3F6CA177 else 0x000000B8)).v1
        v2 := (ksInit (if s.vl = 0 then 0x3F6CA177 else 0x000000B8)).v2
        v3 := (ksInit (if s.vl = 0 then 0x3F6CA177 else 0x000000B8)).v3
        v4 := (ksInit (if s.vl = 0 then 0x3F6CA177 else 0x000000B8)).v4
        pos := 0, rem := s.len, phase := .stride }

/-- 40_keystream_cipher R116 with the mixer of R115: one stride, byte by byte. -/
def Obligations.StrideMicroStep : Prop :=
  ∀ s : State, s.phase = .stride → s.rem ≠ 0 →
    s.pos.toNat + min 4 s.rem.toNat ≤ Config.platform.bufCap →
    Memory.wf (unwritten Config.platform s) s.buf →
    ∃ m, engineStep Config.platform s =
      .next { s with
        v1 := s.v2, v2 := s.v3, v3 := s.v4, v4 := ksOut (cipherState s)
        pos := s.pos + 4, rem := s.rem - BitVec.ofNat 32 (min 4 s.rem.toNat), buf := m } ∧
      ∀ a, bufByte Config.platform { s with buf := m } a =
        if s.pos.toNat ≤ a ∧ a < s.pos.toNat + min 4 s.rem.toNat then
          bufByte Config.platform s a ^^^ lane (ksOut (cipherState s)) (a - s.pos.toNat)
        else bufByte Config.platform s a

/-- 40_keystream_cipher R117: STRIDE's exit changes nothing but `PHASE`. -/
def Obligations.StrideExitMicroStep : Prop :=
  ∀ s : State, s.phase = .stride → s.rem = 0 →
    engineStep Config.platform s = .next { s with phase := if s.opl = 4 then .post else .finish }

/-- 40_keystream_cipher R120: `cipher.std` on a ready block: every register, every flag, every byte. -/
def Obligations.CipherStdResult : Prop :=
  ∀ s : State, Ready Config.platform s → Memory.wf (unwritten Config.platform s) s.buf →
    ∃ m, exec .cipherStd s =
      .next { s with
        v1 := (ksState 0x3F6CA177 ((s.len.toNat + 3) / 4)).v1
        v2 := (ksState 0x3F6CA177 ((s.len.toNat + 3) / 4)).v2
        v3 := (ksState 0x3F6CA177 ((s.len.toNat + 3) / 4)).v3
        v4 := (ksState 0x3F6CA177 ((s.len.toNat + 3) / 4)).v4
        seed := 0x3F6CA177, pos := posAfter s.len.toNat, rem := 0
        status := statusDone s.status, phase := .idle, opl := 1, vl := 0, buf := m } ∧
      ∀ a, bufByte Config.platform { s with buf := m } a =
        if a < s.len.toNat then bufByte Config.platform s a ^^^ ksByte 0x3F6CA177 a
        else bufByte Config.platform s a

/-- 40_keystream_cipher R121: `cipher.alt` on a ready block. -/
def Obligations.CipherAltResult : Prop :=
  ∀ s : State, Ready Config.platform s → Memory.wf (unwritten Config.platform s) s.buf →
    ∃ m, exec .cipherAlt s =
      .next { s with
        v1 := (ksState 0x000000B8 ((s.len.toNat + 3) / 4)).v1
        v2 := (ksState 0x000000B8 ((s.len.toNat + 3) / 4)).v2
        v3 := (ksState 0x000000B8 ((s.len.toNat + 3) / 4)).v3
        v4 := (ksState 0x000000B8 ((s.len.toNat + 3) / 4)).v4
        seed := 0x000000B8, pos := posAfter s.len.toNat, rem := 0
        status := statusDone s.status, phase := .idle, opl := 1, vl := 1, buf := m } ∧
      ∀ a, bufByte Config.platform { s with buf := m } a =
        if a < s.len.toNat then bufByte Config.platform s a ^^^ ksByte 0x000000B8 a
        else bufByte Config.platform s a

/-! ### The checksum engine -/

/-- 41_checksum_engine R140: the byte step over natural numbers, for every table: the index is
`b XOR (acc / 2^24)`, which is below 256, and the accumulator moves left by 8. -/
def Obligations.CrcStepIndexIsBounded : Prop :=
  ∀ (table : BitVec 8 → Word) (acc : Word) (b : Byte),
    (crcIndex acc b).toNat = b.toNat ^^^ (acc.toNat / 2 ^ 24) ∧ (crcIndex acc b).toNat < 256 ∧
    crcStep table acc b =
      table (BitVec.ofNat 8 (b.toNat ^^^ (acc.toNat / 2 ^ 24))) ^^^
        BitVec.ofNat 32 (acc.toNat * 2 ^ 8)

/-- 41_checksum_engine R145 (b), (c), (d): the checksum of no byte, one byte and two bytes, for every
table. -/
def Obligations.ChecksumOfShortBuffers : Prop :=
  ∀ (table : BitVec 8 → Word) (b0 b1 : Byte),
    hashBytes table [] = 0x00000000 ∧
    hashBytes table [b0] = table (b0 ^^^ 0xFF) ^^^ 0x000000FF ∧
    hashBytes table [b0, b1] =
      table (b1 ^^^ 0xFF ^^^ (table (b0 ^^^ 0xFF)).extractLsb' 24 8) ^^^
        (table (b0 ^^^ 0xFF) <<< 8) ^^^ 0x0000FFFF

/-- 41_checksum_engine R141: the HINIT micro-step. -/
def Obligations.HinitMicroStep : Prop :=
  ∀ s : State, s.phase = .hinit →
    engineStep Config.platform s = .next { s with acc := 0xFFFFFFFF, pos := 0, phase := .hash }

/-- 41_checksum_engine R142: one byte is folded into `ACC`; no byte of `BUF` changes. -/
def Obligations.HashByteMicroStep : Prop :=
  ∀ s : State, s.phase = .hash → s.pos.toNat < s.len.toNat →
    s.len.toNat ≤ Config.platform.bufCap →
    engineStep Config.platform s =
      .next { s with
        acc := crcStep Config.platform.table s.acc (bufByte Config.platform s s.pos.toNat)
        pos := s.pos + 1 }

/-- 41_checksum_engine R143: the checksum is finished: `CRC <- ~ACC`. -/
def Obligations.HashExitMicroStep : Prop :=
  ∀ s : State, s.phase = .hash → s.pos = s.len →
    (s.opl = 2 → engineStep Config.platform s =
      .next { s with crc := ~~~ s.acc, phase := .finish }) ∧
    (s.opl = 3 → engineStep Config.platform s =
      .next { s with crc := ~~~ s.acc, phase := .trail })

/-- 41_checksum_engine R146, R144: `hash` on a ready block: `CRC`, its complement in `ACC`, `POS`, the
flags, and nothing else. -/
def Obligations.HashResult : Prop :=
  ∀ s : State, Ready Config.platform s →
    exec .hash s =
      .next { s with
        crc := ~~~ ((List.range s.len.toNat).foldl
          (fun acc k => crcStep Config.platform.table acc (bufByte Config.platform s k)) 0xFFFFFFFF)
        acc := (List.range s.len.toNat).foldl
          (fun acc k => crcStep Config.platform.table acc (bufByte Config.platform s k)) 0xFFFFFFFF
        pos := s.len, status := statusDone s.status, phase := .idle, opl := 2, vl := 0 }

/-! ### The variant policy -/

/-- 42_format_orchestration R161: the TRAIL micro-step, standard: the trailer is appended, least
significant byte first. -/
def Obligations.TrailStdMicroStep : Prop :=
  ∀ s : State, s.phase = .trail → s.vl = 0 → s.len.toNat + 4 ≤ Config.platform.bufCap →
    Memory.wf (unwritten Config.platform s) s.buf →
    ∃ m, engineStep Config.platform s = .next { s with len := s.len + 4, phase := .ksinit, buf := m } ∧
      ∀ a, bufByte Config.platform { s with buf := m } a =
        if s.len.toNat ≤ a ∧ a < s.len.toNat + 4 then lane s.crc (a - s.len.toNat)
        else bufByte Config.platform s a

/-- 42_format_orchestration R164: the TRAIL micro-step, alternate: the trailer overwrites the last four
bytes; `LEN` is not written. -/
def Obligations.TrailAltMicroStep : Prop :=
  ∀ s : State, s.phase = .trail → s.vl = 1 → 4 ≤ s.len.toNat →
    s.len.toNat ≤ Config.platform.bufCap → Memory.wf (unwritten Config.platform s) s.buf →
    ∃ m, engineStep Config.platform s = .next { s with phase := .ksinit, buf := m } ∧
      ∀ a, bufByte Config.platform { s with buf := m } a =
        if s.len.toNat - 4 ≤ a ∧ a < s.len.toNat then lane s.crc (a - (s.len.toNat - 4))
        else bufByte Config.platform s a

/-- 42_format_orchestration R167: the POST micro-step, standard: `LEN <- LEN - 4`, no byte written. -/
def Obligations.PostStdMicroStep : Prop :=
  ∀ s : State, s.phase = .post → s.vl = 0 → 4 ≤ s.len.toNat →
    engineStep Config.platform s =
      .next { s with len := BitVec.ofNat 32 (s.len.toNat - 4), phase := .finish }

/-- 42_format_orchestration R170: the POST micro-step, alternate: the last four bytes become 0. -/
def Obligations.PostAltMicroStep : Prop :=
  ∀ s : State, s.phase = .post → s.vl = 1 → 4 ≤ s.len.toNat →
    s.len.toNat ≤ Config.platform.bufCap → Memory.wf (unwritten Config.platform s) s.buf →
    ∃ m, engineStep Config.platform s = .next { s with phase := .finish, buf := m } ∧
      ∀ a, bufByte Config.platform { s with buf := m } a =
        if s.len.toNat - 4 ≤ a ∧ a < s.len.toNat then 0 else bufByte Config.platform s a

/-- 30_encoding R97: the FINISH micro-step. -/
def Obligations.FinishMicroStep : Prop :=
  ∀ s : State, s.phase = .finish →
    engineStep Config.platform s =
      .next { s with status := { s.status with busy := false, done := true }, phase := .idle }

/-- 42_format_orchestration R160: `encrypt.std` on a ready block with room for the trailer. The checksum
covers the plaintext bytes only; payload and trailer are enciphered by one keystream. -/
def Obligations.EncryptStdResult : Prop :=
  ∀ s : State, Ready Config.platform s → s.len.toNat + 4 ≤ Config.platform.bufCap →
    Memory.wf (unwritten Config.platform s) s.buf →
    ∃ m, exec .encryptStd s =
      .next { s with
        v1 := (ksState 0x3F6CA177 ((s.len.toNat + 7) / 4)).v1
        v2 := (ksState 0x3F6CA177 ((s.len.toNat + 7) / 4)).v2
        v3 := (ksState 0x3F6CA177 ((s.len.toNat + 7) / 4)).v3
        v4 := (ksState 0x3F6CA177 ((s.len.toNat + 7) / 4)).v4
        len := BitVec.ofNat 32 (s.len.toNat + 4)
        crc := hashBytes Config.platform.table (payload Config.platform s)
        acc := ~~~ (hashBytes Config.platform.table (payload Config.platform s))
        seed := 0x3F6CA177, pos := posAfter (s.len.toNat + 4), rem := 0
        status := statusDone s.status, phase := .idle, opl := 3, vl := 0, buf := m } ∧
      ∀ a, bufByte Config.platform { s with buf := m } a =
        if a < s.len.toNat then bufByte Config.platform s a ^^^ ksByte 0x3F6CA177 a
        else if a < s.len.toNat + 4 then
          lane (hashBytes Config.platform.table (payload Config.platform s)) (a - s.len.toNat) ^^^
            ksByte 0x3F6CA177 a
        else bufByte Config.platform s a

/-- 42_format_orchestration R163, R165: `encrypt.alt` on a ready block with at least four bytes. The
checksum covers all `LEN` bytes, the last four of which the trailer then overwrites. -/
def Obligations.EncryptAltResult : Prop :=
  ∀ s : State, Ready Config.platform s → 4 ≤ s.len.toNat →
    Memory.wf (unwritten Config.platform s) s.buf →
    ∃ m, exec .encryptAlt s =
      .next { s with
        v1 := (ksState 0x000000B8 ((s.len.toNat + 3) / 4)).v1
        v2 := (ksState 0x000000B8 ((s.len.toNat + 3) / 4)).v2
        v3 := (ksState 0x000000B8 ((s.len.toNat + 3) / 4)).v3
        v4 := (ksState 0x000000B8 ((s.len.toNat + 3) / 4)).v4
        crc := hashBytes Config.platform.table (payload Config.platform s)
        acc := ~~~ (hashBytes Config.platform.table (payload Config.platform s))
        seed := 0x000000B8, pos := posAfter s.len.toNat, rem := 0
        status := statusDone s.status, phase := .idle, opl := 3, vl := 1, buf := m } ∧
      ∀ a, bufByte Config.platform { s with buf := m } a =
        if a < s.len.toNat - 4 then bufByte Config.platform s a ^^^ ksByte 0x000000B8 a
        else if a < s.len.toNat then
          lane (hashBytes Config.platform.table (payload Config.platform s))
            (a - (s.len.toNat - 4)) ^^^ ksByte 0x000000B8 a
        else bufByte Config.platform s a

/-- 42_format_orchestration R166: `decrypt.std` on a ready block with at least four bytes. All `LEN`
bytes are deciphered, then `LEN` falls by 4; `CRC` and `ACC` stay. -/
def Obligations.DecryptStdResult : Prop :=
  ∀ s : State, Ready Config.platform s → 4 ≤ s.len.toNat →
    Memory.wf (unwritten Config.platform s) s.buf →
    ∃ m, exec .decryptStd s =
      .next { s with
        v1 := (ksState 0x3F6CA177 ((s.len.toNat + 3) / 4)).v1
        v2 := (ksState 0x3F6CA177 ((s.len.toNat + 3) / 4)).v2
        v3 := (ksState 0x3F6CA177 ((s.len.toNat + 3) / 4)).v3
        v4 := (ksState 0x3F6CA177 ((s.len.toNat + 3) / 4)).v4
        len := BitVec.ofNat 32 (s.len.toNat - 4)
        seed := 0x3F6CA177, pos := posAfter s.len.toNat, rem := 0
        status := statusDone s.status, phase := .idle, opl := 4, vl := 0, buf := m } ∧
      ∀ a, bufByte Config.platform { s with buf := m } a =
        if a < s.len.toNat then bufByte Config.platform s a ^^^ ksByte 0x3F6CA177 a
        else bufByte Config.platform s a

/-- 42_format_orchestration R169: `decrypt.alt` on a ready block with at least four bytes. The last four
bytes become 0; `LEN`, `CRC` and `ACC` stay. -/
def Obligations.DecryptAltResult : Prop :=
  ∀ s : State, Ready Config.platform s → 4 ≤ s.len.toNat →
    Memory.wf (unwritten Config.platform s) s.buf →
    ∃ m, exec .decryptAlt s =
      .next { s with
        v1 := (ksState 0x000000B8 ((s.len.toNat + 3) / 4)).v1
        v2 := (ksState 0x000000B8 ((s.len.toNat + 3) / 4)).v2
        v3 := (ksState 0x000000B8 ((s.len.toNat + 3) / 4)).v3
        v4 := (ksState 0x000000B8 ((s.len.toNat + 3) / 4)).v4
        seed := 0x000000B8, pos := posAfter s.len.toNat, rem := 0
        status := statusDone s.status, phase := .idle, opl := 4, vl := 1, buf := m } ∧
      ∀ a, bufByte Config.platform { s with buf := m } a =
        if a < s.len.toNat - 4 then bufByte Config.platform s a ^^^ ksByte 0x000000B8 a
        else if a < s.len.toNat then 0
        else bufByte Config.platform s a

/-- 42_format_orchestration R171, R172: the round trips as functions on byte lists, for every table. -/
def Obligations.ByteListRoundTrips : Prop :=
  ∀ (table : BitVec 8 → Word) (p : List Byte),
    decryptStdBytes (encryptStdBytes table p) = p ∧
    (4 ≤ p.length →
      decryptAltBytes (encryptAltBytes table p) = p.take (p.length - 4) ++ [0, 0, 0, 0])

/-- 42_format_orchestration R172 (a): `decrypt.std` after `encrypt.std` gives the plaintext back, byte
for byte, and `LEN` returns to its first value, for every buffer, the empty one included; the checksum
is left in storage just past the new `LEN`; every other byte is as before. -/
def Obligations.StandardRoundTripOnTheMachine : Prop :=
  ∀ s : State, Ready Config.platform s → s.len.toNat + 4 ≤ Config.platform.bufCap →
    Memory.wf (unwritten Config.platform s) s.buf →
    ∃ t u, exec .encryptStd s = .next t ∧ exec .decryptStd t = .next u ∧ u.len = s.len ∧
      (∀ a, a < s.len.toNat → bufByte Config.platform u a = bufByte Config.platform s a) ∧
      (∀ k, k < 4 → bufByte Config.platform u (s.len.toNat + k) =
        lane (hashBytes Config.platform.table (payload Config.platform s)) k) ∧
      (∀ a, s.len.toNat + 4 ≤ a → bufByte Config.platform u a = bufByte Config.platform s a) ∧
      u.crc = hashBytes Config.platform.table (payload Config.platform s) ∧
      u.status = statusDone s.status

/-- 42_format_orchestration R172 (b): `decrypt.alt` after `encrypt.alt` gives back all bytes but the
last four, which are 0, at the same length. -/
def Obligations.AlternateRoundTripOnTheMachine : Prop :=
  ∀ s : State, Ready Config.platform s → 4 ≤ s.len.toNat →
    Memory.wf (unwritten Config.platform s) s.buf →
    ∃ t u, exec .encryptAlt s = .next t ∧ exec .decryptAlt t = .next u ∧ u.len = s.len ∧
      (∀ a, a < s.len.toNat - 4 → bufByte Config.platform u a = bufByte Config.platform s a) ∧
      (∀ a, s.len.toNat - 4 ≤ a → a < s.len.toNat → bufByte Config.platform u a = 0) ∧
      (∀ a, s.len.toNat ≤ a → bufByte Config.platform u a = bufByte Config.platform s a)

/-- 40_keystream_cipher R119 (a) at the interface: `cipher.std` twice, or `cipher.alt` twice, restores
buffer storage as data. -/
def Obligations.CipherTwiceRestoresTheBuffer : Prop :=
  ∀ (s : State) (i : Instr), (i = .cipherStd ∨ i = .cipherAlt) → Ready Config.platform s →
    Memory.wf (unwritten Config.platform s) s.buf →
    ∃ t u, exec i s = .next t ∧ exec i t = .next u ∧ u.buf = s.buf ∧ u.len = s.len

/-- 42_format_orchestration R168: no decrypt command, and no bare cipher command, depends on the table:
under any other table each answers the same. -/
def Obligations.CipherAndDecryptNeverReadTheTable : Prop :=
  ∀ (cfg : Config) (table : BitVec 8 → Word) (s : State),
    cmdCipherStd { cfg with table := table } s = cmdCipherStd cfg s ∧
    cmdCipherAlt { cfg with table := table } s = cmdCipherAlt cfg s ∧
    cmdDecryptStd { cfg with table := table } s = cmdDecryptStd cfg s ∧
    cmdDecryptAlt { cfg with table := table } s = cmdDecryptAlt cfg s

/-! ### The whole machine -/

/-- The step runs the decoded command: a command word delivered as one atomic event goes through the
decoder and, if it is a command, `exec` answers on the state with the event consumed; an illegal word is
refused (or dropped while busy) without `exec`. The queue of events and the atomic event are the model's
choice (logs 5, 6). -/
def Obligations.StepRunsTheDecodedCommand : Prop :=
  ∀ (s : State) (w : Word) (rest : List HostEvent), s.inputs = .run w :: rest →
    (∀ i, decode w = .ok i → step s = exec i { s with inputs := rest }) ∧
    (∀ e, decode w = .error e → step s = .next (issueIllegal { s with inputs := rest }))

/-- What a step does for every other event, idle and busy, and when the host makes no further access; the
reset event has a statement of its own. The events and
their scheduling are the model's choice (logs 6, 7, 11), and so is the free value that a busy `LEN` read
returns to `store` (log 3); that an idle engine has no step is the spec's
(60_exceptions R206). -/
def Obligations.StepTakesTheNextEvent : Prop :=
  ∀ (s : State) (rest : List HostEvent),
    (s.inputs = [] → step s = engineStep Config.platform s) ∧
    (s.inputs = [] → s.phase = .idle → step s = .next s) ∧
    (∀ o, s.inputs = .op o :: rest →
      step s = .next (hostOp Config.platform o { s with inputs := rest })) ∧
    (s.inputs = .pass :: rest → step s = engineStep Config.platform { s with inputs := rest }) ∧
    (s.inputs = .wait :: rest → s.status.busy = true → step s = engineStep Config.platform s) ∧
    (s.inputs = .wait :: rest → s.status.busy = false → step s = .next { s with inputs := rest }) ∧
    (s.inputs = .store :: rest → s.status.busy = false →
      step s = .next { s with
        inputs := (List.range s.len.toNat).map (fun k => .op (.readBuf (BitVec.ofNat 32 k))) ++ rest
        replies := s.replies ++ [.word s.len] }) ∧
    (s.inputs = .store :: rest → s.status.busy = true →
      step s = .next { s with
        inputs := (List.range (Config.platform.freeWord s.draws).toNat).map
          (fun k => .op (.readBuf (BitVec.ofNat 32 k))) ++ rest
        replies := s.replies ++ [.word (Config.platform.freeWord s.draws)]
        draws := s.draws + 1 })

/-- 70_reset R222: the end of a script. If its last event is an accepted command as one atomic event, the
step ends the script well; if that command is refused, the script ends with the refusal it provoked; if
it is a bare write of the command word, accepted, the script has not ended, since the block is busy. The
events, and that an idle block with no event left is the end whether or not the script waited, are the
model's choice (logs 5, 6, 19). -/
def Obligations.ScriptEndsWithItsLastCommand : Prop :=
  ∀ (s : State) (i : Instr), s.status.wrbusy = false → s.len.toNat ≤ Config.platform.bufCap →
    (s.inputs = [.run (encode i)] → isAccepted Config.platform i s →
      ∃ t, step s = .next t ∧ GoodEnd false t) ∧
    (s.inputs = [.run (encode i)] → s.status.busy = false →
      refusalOf Config.platform i s ≠ none →
      ∃ t, step s = .next t ∧ GoodEnd true t ∧ ¬ GoodEnd false t) ∧
    (s.inputs = [.op (.writeReg 0 (encode i))] → isAccepted Config.platform i s →
      ∃ t, step s = .next t ∧ ¬ ScriptEnded t)

/-- The state right after reset meets the invariant. -/
def Obligations.ResetMeetsTheInvariant : Prop := Inv Config.platform State.reset

/-- Every step keeps the invariant (10_state R27, R28, R29; 20_memory R61; 30_encoding R96): from every
state that meets it, whatever the host does. -/
def Obligations.StepKeepsTheInvariant : Prop :=
  ∀ s t : State, Inv Config.platform s → step s = .next t → Inv Config.platform t

/-- 60_exceptions R191, 20_memory R61: in a state that meets the invariant no step stops: no command
fails, the engine never hangs and never presents an index that does not exist. -/
def Obligations.NoStepStopsUnderTheInvariant : Prop :=
  ∀ s : State, Inv Config.platform s → ∃ t, step s = .next t

/-- 00_scope R12, 70_reset R231 (that a command is also one atomic event: log 5): the micro-steps of an accepted command give exactly the state that the
command as one atomic event gives, after exactly the number of steps of R231, and the block is busy
until then. -/
def Obligations.MicroStepsRefineTheBigStep : Prop :=
  ∀ (s : State) (i : Instr), Inv Config.platform s → isAccepted Config.platform i s →
    engineRun Config.platform (microSteps i s.len.toNat) (accept i s) = exec i s ∧
    ∀ n, n < microSteps i s.len.toNat →
      ∃ t, engineRun Config.platform n (accept i s) = .next t ∧ t.status.busy = true

/-- 60_exceptions R184, R187; 70_reset R210: no step but a reset changes `FATAL`, and none but a reset
clears `WRBUSY`. -/
def Obligations.OnlyResetClearsWrbusyAndFatal : Prop :=
  ∀ s t : State, step s = .next t → (∀ v rest, s.inputs ≠ .reset v :: rest) →
    t.status.fatal = s.status.fatal ∧ (s.status.wrbusy = true → t.status.wrbusy = true)

/-- 10_state R24: `CRC` is written only by HASH's final step (a byte step does not change it), or by `hash` and `encrypt.*` as one atomic
event, or by reset. -/
def Obligations.CrcIsWrittenOnlyByTheChecksumEngine : Prop :=
  ∀ s t : State, step s = .next t → t.crc ≠ s.crc →
    (s.phase = .hash ∧ s.pos = s.len) ∨
    (∃ w rest, s.inputs = .run w :: rest ∧ (w = 0x2 ∨ w = 0x3 ∨ w = 0x13)) ∨
    (∃ v rest, s.inputs = .reset v :: rest)

/-- 20_memory R60, R61: a command that starts with length `L` changes no byte at an index `L + 4` or
beyond, and only `encrypt.std` changes one at `L` or beyond; a refused or dropped one changes no byte. -/
def Obligations.CommandsTouchNoByteBeyondTheTrailer : Prop :=
  ∀ (s t : State) (i : Instr), Memory.wf (unwritten Config.platform s) s.buf → exec i s = .next t →
    (∀ a, s.len.toNat + 4 ≤ a → bufByte Config.platform t a = bufByte Config.platform s a) ∧
    (i ≠ .encryptStd → ∀ a, s.len.toNat ≤ a →
      bufByte Config.platform t a = bufByte Config.platform s a) ∧
    (i = .hash ∨ ¬ isAccepted Config.platform i s → t.buf = s.buf)

/-- 10_state R21, R23; 40_keystream_cipher R111; 41_checksum_engine R141: no command depends on what an
earlier one left in `V1` to `V4`, `ACC`, `CRC`, `SEED`, `POS`, `REM`, `OPL` or `VL`: two states that agree
on the rest of the block get the same buffer, length and flags, and an accepted cipher pass leaves the
same cipher registers. -/
def Obligations.CommandsReadNoStaleRegister : Prop :=
  ∀ (s s' t t' : State) (i : Instr),
    s'.len = s.len → s'.status = s.status → s'.buf = s.buf → s'.epoch = s.epoch →
    exec i s = .next t → exec i s' = .next t' →
    t'.buf = t.buf ∧ t'.len = t.len ∧ t'.status = t.status ∧
    (isAccepted Config.platform i s → i = .hash ∨ (t'.v1 = t.v1 ∧ t'.v2 = t.v2 ∧ t'.v3 = t.v3 ∧
      t'.v4 = t.v4 ∧ t'.seed = t.seed ∧ t'.pos = t.pos ∧ t'.rem = t.rem)) ∧
    (isAccepted Config.platform i s → i = .hash ∨ i = .encryptStd ∨ i = .encryptAlt →
      t'.crc = t.crc ∧ t'.acc = t.acc)
end

