-- ==== Sys2Proof/Laws/Config.lean ====
section
/-! SUPPORT. What is known of the platform's configuration: the bounds of spec/00_scope.md R4. -/

namespace Sys2Proof

theorem platform_valid : Config.platform.Valid := by
  simp only [Config.Valid, Config.platform]; omega

theorem platform_bufCap_ge : 4 ≤ Config.platform.bufCap := platform_valid.1

theorem platform_bufCap_le : Config.platform.bufCap ≤ 4294967292 := platform_valid.2

end Sys2Proof
end

