-- ==== Sys2Proof/Laws/Memory.lean ====
section
/-! SUPPORT. Laws of buffer storage: a read after a write, the canonical form kept by every write, and
equal contents are equal data. -/

namespace Sys2Proof.Machine

variable {dflt : Nat → Byte}

theorem Memory.read_of_not_mem {m : Memory} {a : Nat} (h : ∀ c ∈ m, c.1 ≠ a) :
    Memory.read dflt m a = dflt a := by
  induction m with
  | nil => rfl
  | cons c m ih =>
    obtain ⟨k, b⟩ := c
    have hk : a ≠ k := fun e => h (k, b) List.mem_cons_self e.symm
    rw [Memory.read, if_neg hk]
    exact ih fun c hc => h c (List.mem_cons_of_mem _ hc)

theorem Memory.wf_nil : Memory.wf dflt [] := by simp [Memory.wf]

theorem Memory.wf_tail {c : Host.Cell} {m : Memory} (h : Memory.wf dflt (c :: m)) :
    Memory.wf dflt m :=
  ⟨(List.pairwise_cons.mp h.1).2, fun d hd => h.2 d (List.mem_cons_of_mem _ hd)⟩

theorem Memory.head_lt {c : Host.Cell} {m : Memory} (h : Memory.wf dflt (c :: m)) :
    ∀ d ∈ m, c.1 < d.1 := (List.pairwise_cons.mp h.1).1

/-- A write adds at most its own index. -/
theorem Memory.mem_write {m : Memory} {a : Nat} {b : Byte} {c : Host.Cell}
    (h : c ∈ Memory.write dflt m a b) : c = (a, b) ∧ b ≠ dflt a ∨ c ∈ m := by
  induction m with
  | nil =>
    rw [Memory.write] at h
    split at h
    · simp at h
    · next hb => exact .inl ⟨by simpa using h, hb⟩
  | cons d m ih =>
    obtain ⟨k, e⟩ := d
    rw [Memory.write] at h
    split at h
    · split at h
      · exact .inr h
      · next hb => exact (List.mem_cons.mp h).imp (fun x => ⟨x, hb⟩) id
    · split at h
      · split at h
        · exact .inr (List.mem_cons_of_mem _ h)
        · next hb => exact (List.mem_cons.mp h).imp (fun x => ⟨x, hb⟩) (List.mem_cons_of_mem _)
      · rcases List.mem_cons.mp h with h | h
        · exact .inr (h ▸ List.mem_cons_self)
        · exact (ih h).imp id (List.mem_cons_of_mem _)

theorem Memory.wf_write {m : Memory} (hm : Memory.wf dflt m) (a : Nat) (b : Byte) :
    Memory.wf dflt (Memory.write dflt m a b) := by
  refine ⟨?_, fun c hc => ?_⟩
  · induction m with
    | nil => rw [Memory.write]; split <;> simp
    | cons d m ih =>
      obtain ⟨k, e⟩ := d
      have hlt := Memory.head_lt hm
      have ht := (Memory.wf_tail hm)
      rw [Memory.write]
      split
      · next hak =>
        split
        · exact hm.1
        · refine List.pairwise_cons.mpr ⟨fun c hc => ?_, hm.1⟩
          rcases List.mem_cons.mp hc with rfl | hc
          · exact hak
          · exact Nat.lt_trans hak (hlt c hc)
      · split
        · next hak =>
          split
          · exact ht.1
          · exact List.pairwise_cons.mpr ⟨fun c hc => hak ▸ hlt c hc, ht.1⟩
        · next h1 h2 =>
          refine List.pairwise_cons.mpr ⟨fun c hc => ?_, ih ht⟩
          rcases Memory.mem_write hc with ⟨rfl, -⟩ | hc
          · exact Nat.lt_of_le_of_ne (Nat.le_of_not_lt h1) (Ne.symm h2)
          · exact hlt c hc
  · rcases Memory.mem_write hc with ⟨rfl, hb⟩ | hc
    · exact hb
    · exact hm.2 c hc

/-- A read after a write of one byte. -/
theorem Memory.read_write {m : Memory} (hm : Memory.wf dflt m) (a : Nat) (b : Byte) (x : Nat) :
    Memory.read dflt (Memory.write dflt m a b) x = if x = a then b else Memory.read dflt m x := by
  induction m with
  | nil =>
    rw [Memory.write]
    split
    · next hb => by_cases hx : x = a <;> simp [Memory.read, hx, hb]
    · simp [Memory.read]
  | cons d m ih =>
    obtain ⟨k, e⟩ := d
    have hlt := Memory.head_lt hm
    have ht := Memory.wf_tail hm
    rw [Memory.write]
    split
    · next hak =>
      split
      · next hb =>
        by_cases hx : x = a
        · subst hx
          rw [if_pos rfl, hb]
          refine Memory.read_of_not_mem fun c hc => ?_
          rcases List.mem_cons.mp hc with rfl | hc
          · exact (Nat.ne_of_lt hak).symm
          · exact (Nat.ne_of_lt (Nat.lt_trans hak (hlt c hc))).symm
        · rw [if_neg hx]
      · rw [Memory.read]
    · split
      · next hak =>
        subst hak
        split
        · next hb =>
          by_cases hx : x = a
          · subst hx
            rw [if_pos rfl, hb]
            exact Memory.read_of_not_mem fun c hc => (Nat.ne_of_lt (hlt c hc)).symm
          · rw [if_neg hx, Memory.read, if_neg hx]
        · by_cases hx : x = a <;> simp [Memory.read, hx]
      · next h1 h2 =>
        rw [Memory.read, Memory.read]
        by_cases hx : x = k
        · have : x ≠ a := fun h => h2 (h.symm.trans hx)
          rw [if_pos hx, if_neg this, if_pos hx]
        · rw [if_neg hx, if_neg hx, ih ht]

theorem Memory.wf_writeList {m : Memory} (hm : Memory.wf dflt m) (a : Nat) (bs : List Byte) :
    Memory.wf dflt (Memory.writeList dflt m a bs) := by
  induction bs generalizing m a with
  | nil => exact hm
  | cons b bs ih => exact ih (Memory.wf_write hm a b) (a + 1)

/-- A read after a write of consecutive bytes. -/
theorem Memory.read_writeList {m : Memory} (hm : Memory.wf dflt m) (a : Nat) (bs : List Byte)
    (x : Nat) :
    Memory.read dflt (Memory.writeList dflt m a bs) x =
      if a ≤ x ∧ x < a + bs.length then bs.getD (x - a) 0 else Memory.read dflt m x := by
  induction bs generalizing m a with
  | nil => simp [Memory.writeList]
  | cons b bs ih =>
    rw [Memory.writeList, ih (Memory.wf_write hm a b), Memory.read_write hm, List.length_cons]
    by_cases hx : x = a
    · subst hx
      rw [if_neg (by omega), if_pos rfl, if_pos ⟨le_refl x, by omega⟩]
      simp
    · by_cases h : a + 1 ≤ x ∧ x < a + 1 + bs.length
      · rw [if_pos h, if_pos ⟨by omega, by omega⟩, show x - a = (x - (a + 1)) + 1 by omega,
          List.getD_cons_succ]
      · rw [if_neg h, if_neg hx, if_neg (by omega)]

/-- Writing consecutive bytes adds no other index. -/
theorem Memory.bound_writeList {m : Memory} {a n : Nat} {bs : List Byte}
    (hm : ∀ c ∈ m, c.1 < n) (h : a + bs.length ≤ n) :
    ∀ c ∈ Memory.writeList dflt m a bs, c.1 < n := by
  induction bs generalizing m a with
  | nil => exact hm
  | cons b bs ih =>
    rw [List.length_cons] at h
    refine ih (fun c hc => ?_) (by omega)
    rcases Memory.mem_write hc with ⟨rfl, -⟩ | hc
    · show a < n
      omega
    · exact hm c hc

/-- Canonical memories with equal contents are equal data. -/
theorem Memory.ext_of_wf {m m' : Memory} (hm : Memory.wf dflt m) (hm' : Memory.wf dflt m')
    (h : ∀ a, Memory.read dflt m a = Memory.read dflt m' a) : m = m' := by
  have head_differs : ∀ (c : Host.Cell) (m m' : Memory), Memory.wf dflt (c :: m) →
      (∀ d ∈ m', c.1 < d.1) →
      (∀ a, Memory.read dflt (c :: m) a = Memory.read dflt m' a) → False := by
    intro c m m' hw hlt he
    have h1 := he c.1
    rw [Memory.read_of_not_mem (m := m') (fun d hd => (Nat.ne_of_lt (hlt d hd)).symm)] at h1
    obtain ⟨k, b⟩ := c
    simp only [Memory.read, if_true] at h1
    exact hw.2 (k, b) List.mem_cons_self h1
  induction m generalizing m' with
  | nil =>
    cases m' with
    | nil => rfl
    | cons d m' =>
      exact (head_differs d m' [] hm' (by simp) (fun a => (h a).symm)).elim
  | cons c m ih =>
    cases m' with
    | nil => exact (head_differs c m [] hm (by simp) h).elim
    | cons d m' =>
      have hc := Memory.head_lt hm
      have hd := Memory.head_lt hm'
      rcases Nat.lt_trichotomy c.1 d.1 with hlt | heq | hgt
      · refine (head_differs c m (d :: m') hm (fun e he => ?_) h).elim
        rcases List.mem_cons.mp he with rfl | he
        · exact hlt
        · exact Nat.lt_trans hlt (hd e he)
      · obtain ⟨k, b⟩ := c
        obtain ⟨k', b'⟩ := d
        simp only at heq hc hd
        subst heq
        have hb : b = b' := by simpa [Memory.read] using h k
        subst hb
        rw [ih (Memory.wf_tail hm) (Memory.wf_tail hm') fun a => ?_]
        by_cases ha : a = k
        · subst ha
          rw [Memory.read_of_not_mem fun e he => (Nat.ne_of_lt (hc e he)).symm,
            Memory.read_of_not_mem fun e he => (Nat.ne_of_lt (hd e he)).symm]
        · simpa [Memory.read, ha] using h a
      · refine (head_differs d m' (c :: m) hm' (fun e he => ?_) (fun a => (h a).symm)).elim
        rcases List.mem_cons.mp he with rfl | he
        · exact hgt
        · exact Nat.lt_trans hgt (hc e he)

/-- The canonical form after `MemWrite`. -/
theorem memWrite_wf {cfg : Config} {s : State} (h : Memory.wf (unwritten cfg s) s.buf) (a : Nat)
    (bs : List Byte) : Memory.wf (unwritten cfg s) (memWrite cfg s a bs).buf :=
  Memory.wf_writeList h a bs

/-- Every byte of `BUF` after `MemWrite`. -/
theorem memWrite_bufByte {cfg : Config} {s : State} (h : Memory.wf (unwritten cfg s) s.buf)
    (a : Nat) (bs : List Byte) (x : Nat) :
    bufByte cfg (memWrite cfg s a bs) x =
      if a ≤ x ∧ x < a + bs.length then bs.getD (x - a) 0 else bufByte cfg s x :=
  Memory.read_writeList h a bs x

/-- Reset leaves buffer storage in its canonical form. -/
theorem reset_buf_wf : Memory.wf (unwritten Config.platform State.reset) State.reset.buf :=
  Memory.wf_nil

end Sys2Proof.Machine
end

