-- ==== Sys2Proof/Laws/Pure.lean ====
section
/-! SUPPORT. Lengths and elements of the pure functions of spec/40_keystream_cipher.md and
spec/41_checksum_engine.md, and of `MemRead`. -/

namespace Sys2Proof.Machine

theorem cipherFrom_length (seed : Word) (i : Nat) (b : List Byte) :
    (cipherFrom seed i b).length = b.length := by
  induction b generalizing i with
  | nil => rfl
  | cons x b ih => simp [cipherFrom, ih]

theorem cipher_length (b : List Byte) (seed : Word) : (cipher b seed).length = b.length :=
  cipherFrom_length seed 0 b

theorem cipherFrom_getD (seed : Word) (i : Nat) (b : List Byte) (k : Nat) (h : k < b.length) :
    (cipherFrom seed i b).getD k 0 = b.getD k 0 ^^^ ksByte seed (i + k) := by
  induction b generalizing i k with
  | nil => simp at h
  | cons x b ih =>
    cases k with
    | zero => simp [cipherFrom]
    | succ k =>
      rw [cipherFrom, List.getD_cons_succ, List.getD_cons_succ, ih (i + 1) k (by simpa using h),
        Nat.add_right_comm, Nat.add_assoc]

/-- The byte of `cipher` at an index of the list (R118). -/
theorem cipher_getD (b : List Byte) (seed : Word) (k : Nat) (h : k < b.length) :
    (cipher b seed).getD k 0 = b.getD k 0 ^^^ ksByte seed k := by
  rw [cipher, cipherFrom_getD seed 0 b k h, Nat.zero_add]

theorem mixFrom_length (v5 : Word) (k : Nat) (b : List Byte) :
    (mixFrom v5 k b).length = b.length := by
  induction b generalizing k with
  | nil => rfl
  | cons x b ih => simp [mixFrom, ih]

theorem mixFrom_getD (v5 : Word) (i : Nat) (b : List Byte) (k : Nat) (h : k < b.length) :
    (mixFrom v5 i b).getD k 0 = b.getD k 0 ^^^ lane v5 (i + k) := by
  induction b generalizing i k with
  | nil => simp at h
  | cons x b ih =>
    cases k with
    | zero => simp [mixFrom]
    | succ k =>
      rw [mixFrom, List.getD_cons_succ, List.getD_cons_succ, ih (i + 1) k (by simpa using h),
        Nat.add_right_comm, Nat.add_assoc]

theorem memRead_length (cfg : Config) (s : State) (a n : Nat) : (memRead cfg s a n).length = n := by
  simp [memRead]

theorem memRead_getD (cfg : Config) (s : State) (a n k : Nat) (h : k < n) :
    (memRead cfg s a n).getD k 0 = bufByte cfg s (a + k) := by
  simp [memRead, List.getD_eq_getElem?_getD, List.getElem?_map, List.getElem?_range h]

theorem payload_length (cfg : Config) (s : State) : (payload cfg s).length = s.len.toNat :=
  memRead_length cfg s 0 _

theorem leBytes_length (w : Word) : (leBytes w).length = 4 := rfl

end Sys2Proof.Machine
end

