-- ==== Sys2Proof/Laws/State.lean ====
section
/-! SUPPORT. For each named update of the state, what every field holds after it: one lemma per field,
true by rfl. -/

namespace Sys2Proof.Machine

section
variable (cfg : Config) (s : State) (a : Nat) (bs : List Byte)

@[simp] theorem memWrite_v1 : (memWrite cfg s a bs).v1 = s.v1 := rfl
@[simp] theorem memWrite_v2 : (memWrite cfg s a bs).v2 = s.v2 := rfl
@[simp] theorem memWrite_v3 : (memWrite cfg s a bs).v3 = s.v3 := rfl
@[simp] theorem memWrite_v4 : (memWrite cfg s a bs).v4 = s.v4 := rfl
@[simp] theorem memWrite_acc : (memWrite cfg s a bs).acc = s.acc := rfl
@[simp] theorem memWrite_crc : (memWrite cfg s a bs).crc = s.crc := rfl
@[simp] theorem memWrite_len : (memWrite cfg s a bs).len = s.len := rfl
@[simp] theorem memWrite_seed : (memWrite cfg s a bs).seed = s.seed := rfl
@[simp] theorem memWrite_pos : (memWrite cfg s a bs).pos = s.pos := rfl
@[simp] theorem memWrite_rem : (memWrite cfg s a bs).rem = s.rem := rfl
@[simp] theorem memWrite_status : (memWrite cfg s a bs).status = s.status := rfl
@[simp] theorem memWrite_phase : (memWrite cfg s a bs).phase = s.phase := rfl
@[simp] theorem memWrite_opl : (memWrite cfg s a bs).opl = s.opl := rfl
@[simp] theorem memWrite_vl : (memWrite cfg s a bs).vl = s.vl := rfl
@[simp] theorem memWrite_buf :
    (memWrite cfg s a bs).buf = Memory.writeList (unwritten cfg s) s.buf a bs := rfl
@[simp] theorem memWrite_inputs : (memWrite cfg s a bs).inputs = s.inputs := rfl
@[simp] theorem memWrite_replies : (memWrite cfg s a bs).replies = s.replies := rfl
@[simp] theorem memWrite_draws : (memWrite cfg s a bs).draws = s.draws := rfl
@[simp] theorem memWrite_epoch : (memWrite cfg s a bs).epoch = s.epoch := rfl

end

section
variable (c : RefusalCode) (s : State)

@[simp] theorem refuse_v1 : (refuse c s).v1 = s.v1 := rfl
@[simp] theorem refuse_v2 : (refuse c s).v2 = s.v2 := rfl
@[simp] theorem refuse_v3 : (refuse c s).v3 = s.v3 := rfl
@[simp] theorem refuse_v4 : (refuse c s).v4 = s.v4 := rfl
@[simp] theorem refuse_acc : (refuse c s).acc = s.acc := rfl
@[simp] theorem refuse_crc : (refuse c s).crc = s.crc := rfl
@[simp] theorem refuse_len : (refuse c s).len = s.len := rfl
@[simp] theorem refuse_seed : (refuse c s).seed = s.seed := rfl
@[simp] theorem refuse_pos : (refuse c s).pos = s.pos := rfl
@[simp] theorem refuse_rem : (refuse c s).rem = s.rem := rfl
@[simp] theorem refuse_status : (refuse c s).status = s.status.refused c := rfl
@[simp] theorem refuse_phase : (refuse c s).phase = s.phase := rfl
@[simp] theorem refuse_opl : (refuse c s).opl = s.opl := rfl
@[simp] theorem refuse_vl : (refuse c s).vl = s.vl := rfl
@[simp] theorem refuse_buf : (refuse c s).buf = s.buf := rfl
@[simp] theorem refuse_inputs : (refuse c s).inputs = s.inputs := rfl
@[simp] theorem refuse_replies : (refuse c s).replies = s.replies := rfl
@[simp] theorem refuse_draws : (refuse c s).draws = s.draws := rfl
@[simp] theorem refuse_epoch : (refuse c s).epoch = s.epoch := rfl

end

section
variable (s : State)

@[simp] theorem dropWhileBusy_v1 : (dropWhileBusy s).v1 = s.v1 := rfl
@[simp] theorem dropWhileBusy_v2 : (dropWhileBusy s).v2 = s.v2 := rfl
@[simp] theorem dropWhileBusy_v3 : (dropWhileBusy s).v3 = s.v3 := rfl
@[simp] theorem dropWhileBusy_v4 : (dropWhileBusy s).v4 = s.v4 := rfl
@[simp] theorem dropWhileBusy_acc : (dropWhileBusy s).acc = s.acc := rfl
@[simp] theorem dropWhileBusy_crc : (dropWhileBusy s).crc = s.crc := rfl
@[simp] theorem dropWhileBusy_len : (dropWhileBusy s).len = s.len := rfl
@[simp] theorem dropWhileBusy_seed : (dropWhileBusy s).seed = s.seed := rfl
@[simp] theorem dropWhileBusy_pos : (dropWhileBusy s).pos = s.pos := rfl
@[simp] theorem dropWhileBusy_rem : (dropWhileBusy s).rem = s.rem := rfl
@[simp] theorem dropWhileBusy_status : (dropWhileBusy s).status = s.status.wroteWhileBusy := rfl
@[simp] theorem dropWhileBusy_phase : (dropWhileBusy s).phase = s.phase := rfl
@[simp] theorem dropWhileBusy_opl : (dropWhileBusy s).opl = s.opl := rfl
@[simp] theorem dropWhileBusy_vl : (dropWhileBusy s).vl = s.vl := rfl
@[simp] theorem dropWhileBusy_buf : (dropWhileBusy s).buf = s.buf := rfl
@[simp] theorem dropWhileBusy_inputs : (dropWhileBusy s).inputs = s.inputs := rfl
@[simp] theorem dropWhileBusy_replies : (dropWhileBusy s).replies = s.replies := rfl
@[simp] theorem dropWhileBusy_draws : (dropWhileBusy s).draws = s.draws := rfl
@[simp] theorem dropWhileBusy_epoch : (dropWhileBusy s).epoch = s.epoch := rfl

end

section
variable (c : RefusalCode) (s : State)

@[simp] theorem refuseCommand_v1 : (refuseCommand c s).v1 = s.v1 := rfl
@[simp] theorem refuseCommand_v2 : (refuseCommand c s).v2 = s.v2 := rfl
@[simp] theorem refuseCommand_v3 : (refuseCommand c s).v3 = s.v3 := rfl
@[simp] theorem refuseCommand_v4 : (refuseCommand c s).v4 = s.v4 := rfl
@[simp] theorem refuseCommand_acc : (refuseCommand c s).acc = s.acc := rfl
@[simp] theorem refuseCommand_crc : (refuseCommand c s).crc = s.crc := rfl
@[simp] theorem refuseCommand_len : (refuseCommand c s).len = s.len := rfl
@[simp] theorem refuseCommand_seed : (refuseCommand c s).seed = s.seed := rfl
@[simp] theorem refuseCommand_pos : (refuseCommand c s).pos = s.pos := rfl
@[simp] theorem refuseCommand_rem : (refuseCommand c s).rem = s.rem := rfl
@[simp] theorem refuseCommand_status :
    (refuseCommand c s).status = s.status.doneCleared.refused c := rfl
@[simp] theorem refuseCommand_phase : (refuseCommand c s).phase = s.phase := rfl
@[simp] theorem refuseCommand_opl : (refuseCommand c s).opl = s.opl := rfl
@[simp] theorem refuseCommand_vl : (refuseCommand c s).vl = s.vl := rfl
@[simp] theorem refuseCommand_buf : (refuseCommand c s).buf = s.buf := rfl
@[simp] theorem refuseCommand_inputs : (refuseCommand c s).inputs = s.inputs := rfl
@[simp] theorem refuseCommand_replies : (refuseCommand c s).replies = s.replies := rfl
@[simp] theorem refuseCommand_draws : (refuseCommand c s).draws = s.draws := rfl
@[simp] theorem refuseCommand_epoch : (refuseCommand c s).epoch = s.epoch := rfl

end

section
variable (i : Instr) (s : State)

@[simp] theorem accept_v1 : (accept i s).v1 = s.v1 := rfl
@[simp] theorem accept_v2 : (accept i s).v2 = s.v2 := rfl
@[simp] theorem accept_v3 : (accept i s).v3 = s.v3 := rfl
@[simp] theorem accept_v4 : (accept i s).v4 = s.v4 := rfl
@[simp] theorem accept_acc : (accept i s).acc = s.acc := rfl
@[simp] theorem accept_crc : (accept i s).crc = s.crc := rfl
@[simp] theorem accept_len : (accept i s).len = s.len := rfl
@[simp] theorem accept_seed : (accept i s).seed = s.seed := rfl
@[simp] theorem accept_pos : (accept i s).pos = s.pos := rfl
@[simp] theorem accept_rem : (accept i s).rem = s.rem := rfl
@[simp] theorem accept_status : (accept i s).status = s.status.accepted := rfl
@[simp] theorem accept_phase : (accept i s).phase = firstPhase i := rfl
@[simp] theorem accept_opl : (accept i s).opl = i.fields.op := rfl
@[simp] theorem accept_vl : (accept i s).vl = i.fields.v := rfl
@[simp] theorem accept_buf : (accept i s).buf = s.buf := rfl
@[simp] theorem accept_inputs : (accept i s).inputs = s.inputs := rfl
@[simp] theorem accept_replies : (accept i s).replies = s.replies := rfl
@[simp] theorem accept_draws : (accept i s).draws = s.draws := rfl
@[simp] theorem accept_epoch : (accept i s).epoch = s.epoch := rfl

end

section
variable (s : State)

@[simp] theorem finishStep_v1 : (finishStep s).v1 = s.v1 := rfl
@[simp] theorem finishStep_v2 : (finishStep s).v2 = s.v2 := rfl
@[simp] theorem finishStep_v3 : (finishStep s).v3 = s.v3 := rfl
@[simp] theorem finishStep_v4 : (finishStep s).v4 = s.v4 := rfl
@[simp] theorem finishStep_acc : (finishStep s).acc = s.acc := rfl
@[simp] theorem finishStep_crc : (finishStep s).crc = s.crc := rfl
@[simp] theorem finishStep_len : (finishStep s).len = s.len := rfl
@[simp] theorem finishStep_seed : (finishStep s).seed = s.seed := rfl
@[simp] theorem finishStep_pos : (finishStep s).pos = s.pos := rfl
@[simp] theorem finishStep_rem : (finishStep s).rem = s.rem := rfl
@[simp] theorem finishStep_status : (finishStep s).status = s.status.finished := rfl
@[simp] theorem finishStep_phase : (finishStep s).phase = .idle := rfl
@[simp] theorem finishStep_opl : (finishStep s).opl = s.opl := rfl
@[simp] theorem finishStep_vl : (finishStep s).vl = s.vl := rfl
@[simp] theorem finishStep_buf : (finishStep s).buf = s.buf := rfl
@[simp] theorem finishStep_inputs : (finishStep s).inputs = s.inputs := rfl
@[simp] theorem finishStep_replies : (finishStep s).replies = s.replies := rfl
@[simp] theorem finishStep_draws : (finishStep s).draws = s.draws := rfl
@[simp] theorem finishStep_epoch : (finishStep s).epoch = s.epoch := rfl

end

section
variable (c : CipherState) (s : State)

@[simp] theorem setCipher_v1 : (setCipher c s).v1 = c.v1 := rfl
@[simp] theorem setCipher_v2 : (setCipher c s).v2 = c.v2 := rfl
@[simp] theorem setCipher_v3 : (setCipher c s).v3 = c.v3 := rfl
@[simp] theorem setCipher_v4 : (setCipher c s).v4 = c.v4 := rfl
@[simp] theorem setCipher_acc : (setCipher c s).acc = s.acc := rfl
@[simp] theorem setCipher_crc : (setCipher c s).crc = s.crc := rfl
@[simp] theorem setCipher_len : (setCipher c s).len = s.len := rfl
@[simp] theorem setCipher_seed : (setCipher c s).seed = s.seed := rfl
@[simp] theorem setCipher_pos : (setCipher c s).pos = s.pos := rfl
@[simp] theorem setCipher_rem : (setCipher c s).rem = s.rem := rfl
@[simp] theorem setCipher_status : (setCipher c s).status = s.status := rfl
@[simp] theorem setCipher_phase : (setCipher c s).phase = s.phase := rfl
@[simp] theorem setCipher_opl : (setCipher c s).opl = s.opl := rfl
@[simp] theorem setCipher_vl : (setCipher c s).vl = s.vl := rfl
@[simp] theorem setCipher_buf : (setCipher c s).buf = s.buf := rfl
@[simp] theorem setCipher_inputs : (setCipher c s).inputs = s.inputs := rfl
@[simp] theorem setCipher_replies : (setCipher c s).replies = s.replies := rfl
@[simp] theorem setCipher_draws : (setCipher c s).draws = s.draws := rfl
@[simp] theorem setCipher_epoch : (setCipher c s).epoch = s.epoch := rfl

end

section
variable (cfg : Config) (k : Word) (s : State)

@[simp] theorem cipherPass_v1 :
    (cipherPass cfg k s).v1 = (ksState k (strides s.len.toNat)).v1 := rfl
@[simp] theorem cipherPass_v2 :
    (cipherPass cfg k s).v2 = (ksState k (strides s.len.toNat)).v2 := rfl
@[simp] theorem cipherPass_v3 :
    (cipherPass cfg k s).v3 = (ksState k (strides s.len.toNat)).v3 := rfl
@[simp] theorem cipherPass_v4 :
    (cipherPass cfg k s).v4 = (ksState k (strides s.len.toNat)).v4 := rfl
@[simp] theorem cipherPass_acc : (cipherPass cfg k s).acc = s.acc := rfl
@[simp] theorem cipherPass_crc : (cipherPass cfg k s).crc = s.crc := rfl
@[simp] theorem cipherPass_len : (cipherPass cfg k s).len = s.len := rfl
@[simp] theorem cipherPass_seed : (cipherPass cfg k s).seed = k := rfl
@[simp] theorem cipherPass_pos :
    (cipherPass cfg k s).pos = BitVec.ofNat 32 (4 * strides s.len.toNat) := rfl
@[simp] theorem cipherPass_rem : (cipherPass cfg k s).rem = 0 := rfl
@[simp] theorem cipherPass_status : (cipherPass cfg k s).status = s.status := rfl
@[simp] theorem cipherPass_phase : (cipherPass cfg k s).phase = s.phase := rfl
@[simp] theorem cipherPass_opl : (cipherPass cfg k s).opl = s.opl := rfl
@[simp] theorem cipherPass_vl : (cipherPass cfg k s).vl = s.vl := rfl
@[simp] theorem cipherPass_buf :
    (cipherPass cfg k s).buf = (memWrite cfg s 0 (cipher (payload cfg s) k)).buf := rfl
@[simp] theorem cipherPass_inputs : (cipherPass cfg k s).inputs = s.inputs := rfl
@[simp] theorem cipherPass_replies : (cipherPass cfg k s).replies = s.replies := rfl
@[simp] theorem cipherPass_draws : (cipherPass cfg k s).draws = s.draws := rfl
@[simp] theorem cipherPass_epoch : (cipherPass cfg k s).epoch = s.epoch := rfl

end

section
variable (cfg : Config) (s : State)

@[simp] theorem hashPass_v1 : (hashPass cfg s).v1 = s.v1 := rfl
@[simp] theorem hashPass_v2 : (hashPass cfg s).v2 = s.v2 := rfl
@[simp] theorem hashPass_v3 : (hashPass cfg s).v3 = s.v3 := rfl
@[simp] theorem hashPass_v4 : (hashPass cfg s).v4 = s.v4 := rfl
@[simp] theorem hashPass_acc : (hashPass cfg s).acc = crcFold cfg.table (payload cfg s) := rfl
@[simp] theorem hashPass_crc : (hashPass cfg s).crc = hashBytes cfg.table (payload cfg s) := rfl
@[simp] theorem hashPass_len : (hashPass cfg s).len = s.len := rfl
@[simp] theorem hashPass_seed : (hashPass cfg s).seed = s.seed := rfl
@[simp] theorem hashPass_pos : (hashPass cfg s).pos = s.len := rfl
@[simp] theorem hashPass_rem : (hashPass cfg s).rem = s.rem := rfl
@[simp] theorem hashPass_status : (hashPass cfg s).status = s.status := rfl
@[simp] theorem hashPass_phase : (hashPass cfg s).phase = s.phase := rfl
@[simp] theorem hashPass_opl : (hashPass cfg s).opl = s.opl := rfl
@[simp] theorem hashPass_vl : (hashPass cfg s).vl = s.vl := rfl
@[simp] theorem hashPass_buf : (hashPass cfg s).buf = s.buf := rfl
@[simp] theorem hashPass_inputs : (hashPass cfg s).inputs = s.inputs := rfl
@[simp] theorem hashPass_replies : (hashPass cfg s).replies = s.replies := rfl
@[simp] theorem hashPass_draws : (hashPass cfg s).draws = s.draws := rfl
@[simp] theorem hashPass_epoch : (hashPass cfg s).epoch = s.epoch := rfl

end

section
variable (cfg : Config) (s : State)

@[simp] theorem appendTrailer_v1 : (appendTrailer cfg s).v1 = s.v1 := rfl
@[simp] theorem appendTrailer_v2 : (appendTrailer cfg s).v2 = s.v2 := rfl
@[simp] theorem appendTrailer_v3 : (appendTrailer cfg s).v3 = s.v3 := rfl
@[simp] theorem appendTrailer_v4 : (appendTrailer cfg s).v4 = s.v4 := rfl
@[simp] theorem appendTrailer_acc : (appendTrailer cfg s).acc = s.acc := rfl
@[simp] theorem appendTrailer_crc : (appendTrailer cfg s).crc = s.crc := rfl
@[simp] theorem appendTrailer_len : (appendTrailer cfg s).len = s.len + 4 := rfl
@[simp] theorem appendTrailer_seed : (appendTrailer cfg s).seed = s.seed := rfl
@[simp] theorem appendTrailer_pos : (appendTrailer cfg s).pos = s.pos := rfl
@[simp] theorem appendTrailer_rem : (appendTrailer cfg s).rem = s.rem := rfl
@[simp] theorem appendTrailer_status : (appendTrailer cfg s).status = s.status := rfl
@[simp] theorem appendTrailer_phase : (appendTrailer cfg s).phase = s.phase := rfl
@[simp] theorem appendTrailer_opl : (appendTrailer cfg s).opl = s.opl := rfl
@[simp] theorem appendTrailer_vl : (appendTrailer cfg s).vl = s.vl := rfl
@[simp] theorem appendTrailer_buf :
    (appendTrailer cfg s).buf = (memWrite cfg s s.len.toNat (leBytes s.crc)).buf := rfl
@[simp] theorem appendTrailer_inputs : (appendTrailer cfg s).inputs = s.inputs := rfl
@[simp] theorem appendTrailer_replies : (appendTrailer cfg s).replies = s.replies := rfl
@[simp] theorem appendTrailer_draws : (appendTrailer cfg s).draws = s.draws := rfl
@[simp] theorem appendTrailer_epoch : (appendTrailer cfg s).epoch = s.epoch := rfl

end

section
variable (cfg : Config) (s : State)

@[simp] theorem overlayTrailer_v1 : (overlayTrailer cfg s).v1 = s.v1 := rfl
@[simp] theorem overlayTrailer_v2 : (overlayTrailer cfg s).v2 = s.v2 := rfl
@[simp] theorem overlayTrailer_v3 : (overlayTrailer cfg s).v3 = s.v3 := rfl
@[simp] theorem overlayTrailer_v4 : (overlayTrailer cfg s).v4 = s.v4 := rfl
@[simp] theorem overlayTrailer_acc : (overlayTrailer cfg s).acc = s.acc := rfl
@[simp] theorem overlayTrailer_crc : (overlayTrailer cfg s).crc = s.crc := rfl
@[simp] theorem overlayTrailer_len : (overlayTrailer cfg s).len = s.len := rfl
@[simp] theorem overlayTrailer_seed : (overlayTrailer cfg s).seed = s.seed := rfl
@[simp] theorem overlayTrailer_pos : (overlayTrailer cfg s).pos = s.pos := rfl
@[simp] theorem overlayTrailer_rem : (overlayTrailer cfg s).rem = s.rem := rfl
@[simp] theorem overlayTrailer_status : (overlayTrailer cfg s).status = s.status := rfl
@[simp] theorem overlayTrailer_phase : (overlayTrailer cfg s).phase = s.phase := rfl
@[simp] theorem overlayTrailer_opl : (overlayTrailer cfg s).opl = s.opl := rfl
@[simp] theorem overlayTrailer_vl : (overlayTrailer cfg s).vl = s.vl := rfl
theorem overlayTrailer_buf :
    (overlayTrailer cfg s).buf = (memWrite cfg s (s.len.toNat - 4) (leBytes s.crc)).buf := rfl
@[simp] theorem overlayTrailer_inputs : (overlayTrailer cfg s).inputs = s.inputs := rfl
@[simp] theorem overlayTrailer_replies : (overlayTrailer cfg s).replies = s.replies := rfl
@[simp] theorem overlayTrailer_draws : (overlayTrailer cfg s).draws = s.draws := rfl
@[simp] theorem overlayTrailer_epoch : (overlayTrailer cfg s).epoch = s.epoch := rfl

end

section
variable (s : State)

@[simp] theorem dropTrailer_v1 : (dropTrailer s).v1 = s.v1 := rfl
@[simp] theorem dropTrailer_v2 : (dropTrailer s).v2 = s.v2 := rfl
@[simp] theorem dropTrailer_v3 : (dropTrailer s).v3 = s.v3 := rfl
@[simp] theorem dropTrailer_v4 : (dropTrailer s).v4 = s.v4 := rfl
@[simp] theorem dropTrailer_acc : (dropTrailer s).acc = s.acc := rfl
@[simp] theorem dropTrailer_crc : (dropTrailer s).crc = s.crc := rfl
@[simp] theorem dropTrailer_len : (dropTrailer s).len = s.len - 4 := rfl
@[simp] theorem dropTrailer_seed : (dropTrailer s).seed = s.seed := rfl
@[simp] theorem dropTrailer_pos : (dropTrailer s).pos = s.pos := rfl
@[simp] theorem dropTrailer_rem : (dropTrailer s).rem = s.rem := rfl
@[simp] theorem dropTrailer_status : (dropTrailer s).status = s.status := rfl
@[simp] theorem dropTrailer_phase : (dropTrailer s).phase = s.phase := rfl
@[simp] theorem dropTrailer_opl : (dropTrailer s).opl = s.opl := rfl
@[simp] theorem dropTrailer_vl : (dropTrailer s).vl = s.vl := rfl
@[simp] theorem dropTrailer_buf : (dropTrailer s).buf = s.buf := rfl
@[simp] theorem dropTrailer_inputs : (dropTrailer s).inputs = s.inputs := rfl
@[simp] theorem dropTrailer_replies : (dropTrailer s).replies = s.replies := rfl
@[simp] theorem dropTrailer_draws : (dropTrailer s).draws = s.draws := rfl
@[simp] theorem dropTrailer_epoch : (dropTrailer s).epoch = s.epoch := rfl

end

section
variable (cfg : Config) (s : State)

@[simp] theorem zeroTrailer_v1 : (zeroTrailer cfg s).v1 = s.v1 := rfl
@[simp] theorem zeroTrailer_v2 : (zeroTrailer cfg s).v2 = s.v2 := rfl
@[simp] theorem zeroTrailer_v3 : (zeroTrailer cfg s).v3 = s.v3 := rfl
@[simp] theorem zeroTrailer_v4 : (zeroTrailer cfg s).v4 = s.v4 := rfl
@[simp] theorem zeroTrailer_acc : (zeroTrailer cfg s).acc = s.acc := rfl
@[simp] theorem zeroTrailer_crc : (zeroTrailer cfg s).crc = s.crc := rfl
@[simp] theorem zeroTrailer_len : (zeroTrailer cfg s).len = s.len := rfl
@[simp] theorem zeroTrailer_seed : (zeroTrailer cfg s).seed = s.seed := rfl
@[simp] theorem zeroTrailer_pos : (zeroTrailer cfg s).pos = s.pos := rfl
@[simp] theorem zeroTrailer_rem : (zeroTrailer cfg s).rem = s.rem := rfl
@[simp] theorem zeroTrailer_status : (zeroTrailer cfg s).status = s.status := rfl
@[simp] theorem zeroTrailer_phase : (zeroTrailer cfg s).phase = s.phase := rfl
@[simp] theorem zeroTrailer_opl : (zeroTrailer cfg s).opl = s.opl := rfl
@[simp] theorem zeroTrailer_vl : (zeroTrailer cfg s).vl = s.vl := rfl
theorem zeroTrailer_buf :
    (zeroTrailer cfg s).buf = (memWrite cfg s (s.len.toNat - 4) [0, 0, 0, 0]).buf := rfl
@[simp] theorem zeroTrailer_inputs : (zeroTrailer cfg s).inputs = s.inputs := rfl
@[simp] theorem zeroTrailer_replies : (zeroTrailer cfg s).replies = s.replies := rfl
@[simp] theorem zeroTrailer_draws : (zeroTrailer cfg s).draws = s.draws := rfl
@[simp] theorem zeroTrailer_epoch : (zeroTrailer cfg s).epoch = s.epoch := rfl

end

section
variable (r : Reply) (s : State)

@[simp] theorem reply_v1 : (reply r s).v1 = s.v1 := rfl
@[simp] theorem reply_v2 : (reply r s).v2 = s.v2 := rfl
@[simp] theorem reply_v3 : (reply r s).v3 = s.v3 := rfl
@[simp] theorem reply_v4 : (reply r s).v4 = s.v4 := rfl
@[simp] theorem reply_acc : (reply r s).acc = s.acc := rfl
@[simp] theorem reply_crc : (reply r s).crc = s.crc := rfl
@[simp] theorem reply_len : (reply r s).len = s.len := rfl
@[simp] theorem reply_seed : (reply r s).seed = s.seed := rfl
@[simp] theorem reply_pos : (reply r s).pos = s.pos := rfl
@[simp] theorem reply_rem : (reply r s).rem = s.rem := rfl
@[simp] theorem reply_status : (reply r s).status = s.status := rfl
@[simp] theorem reply_phase : (reply r s).phase = s.phase := rfl
@[simp] theorem reply_opl : (reply r s).opl = s.opl := rfl
@[simp] theorem reply_vl : (reply r s).vl = s.vl := rfl
@[simp] theorem reply_buf : (reply r s).buf = s.buf := rfl
@[simp] theorem reply_inputs : (reply r s).inputs = s.inputs := rfl
@[simp] theorem reply_replies : (reply r s).replies = s.replies ++ [r] := rfl
@[simp] theorem reply_draws : (reply r s).draws = s.draws := rfl
@[simp] theorem reply_epoch : (reply r s).epoch = s.epoch := rfl

end

section
variable (cfg : Config) (s : State)

@[simp] theorem replyFreeWord_v1 : (replyFreeWord cfg s).v1 = s.v1 := rfl
@[simp] theorem replyFreeWord_v2 : (replyFreeWord cfg s).v2 = s.v2 := rfl
@[simp] theorem replyFreeWord_v3 : (replyFreeWord cfg s).v3 = s.v3 := rfl
@[simp] theorem replyFreeWord_v4 : (replyFreeWord cfg s).v4 = s.v4 := rfl
@[simp] theorem replyFreeWord_acc : (replyFreeWord cfg s).acc = s.acc := rfl
@[simp] theorem replyFreeWord_crc : (replyFreeWord cfg s).crc = s.crc := rfl
@[simp] theorem replyFreeWord_len : (replyFreeWord cfg s).len = s.len := rfl
@[simp] theorem replyFreeWord_seed : (replyFreeWord cfg s).seed = s.seed := rfl
@[simp] theorem replyFreeWord_pos : (replyFreeWord cfg s).pos = s.pos := rfl
@[simp] theorem replyFreeWord_rem : (replyFreeWord cfg s).rem = s.rem := rfl
@[simp] theorem replyFreeWord_status : (replyFreeWord cfg s).status = s.status := rfl
@[simp] theorem replyFreeWord_phase : (replyFreeWord cfg s).phase = s.phase := rfl
@[simp] theorem replyFreeWord_opl : (replyFreeWord cfg s).opl = s.opl := rfl
@[simp] theorem replyFreeWord_vl : (replyFreeWord cfg s).vl = s.vl := rfl
@[simp] theorem replyFreeWord_buf : (replyFreeWord cfg s).buf = s.buf := rfl
@[simp] theorem replyFreeWord_inputs : (replyFreeWord cfg s).inputs = s.inputs := rfl
@[simp] theorem replyFreeWord_replies :
    (replyFreeWord cfg s).replies = s.replies ++ [.word (cfg.freeWord s.draws)] := rfl
@[simp] theorem replyFreeWord_draws : (replyFreeWord cfg s).draws = s.draws + 1 := rfl
@[simp] theorem replyFreeWord_epoch : (replyFreeWord cfg s).epoch = s.epoch := rfl

end

section
variable (cfg : Config) (s : State)

@[simp] theorem replyFreeByte_v1 : (replyFreeByte cfg s).v1 = s.v1 := rfl
@[simp] theorem replyFreeByte_v2 : (replyFreeByte cfg s).v2 = s.v2 := rfl
@[simp] theorem replyFreeByte_v3 : (replyFreeByte cfg s).v3 = s.v3 := rfl
@[simp] theorem replyFreeByte_v4 : (replyFreeByte cfg s).v4 = s.v4 := rfl
@[simp] theorem replyFreeByte_acc : (replyFreeByte cfg s).acc = s.acc := rfl
@[simp] theorem replyFreeByte_crc : (replyFreeByte cfg s).crc = s.crc := rfl
@[simp] theorem replyFreeByte_len : (replyFreeByte cfg s).len = s.len := rfl
@[simp] theorem replyFreeByte_seed : (replyFreeByte cfg s).seed = s.seed := rfl
@[simp] theorem replyFreeByte_pos : (replyFreeByte cfg s).pos = s.pos := rfl
@[simp] theorem replyFreeByte_rem : (replyFreeByte cfg s).rem = s.rem := rfl
@[simp] theorem replyFreeByte_status : (replyFreeByte cfg s).status = s.status := rfl
@[simp] theorem replyFreeByte_phase : (replyFreeByte cfg s).phase = s.phase := rfl
@[simp] theorem replyFreeByte_opl : (replyFreeByte cfg s).opl = s.opl := rfl
@[simp] theorem replyFreeByte_vl : (replyFreeByte cfg s).vl = s.vl := rfl
@[simp] theorem replyFreeByte_buf : (replyFreeByte cfg s).buf = s.buf := rfl
@[simp] theorem replyFreeByte_inputs : (replyFreeByte cfg s).inputs = s.inputs := rfl
@[simp] theorem replyFreeByte_replies :
    (replyFreeByte cfg s).replies = s.replies ++ [.byte (cfg.freeByte s.draws)] := rfl
@[simp] theorem replyFreeByte_draws : (replyFreeByte cfg s).draws = s.draws + 1 := rfl
@[simp] theorem replyFreeByte_epoch : (replyFreeByte cfg s).epoch = s.epoch := rfl

end

end Sys2Proof.Machine
end

