-- ==== Sys2Proof/Laws/Ops.lean ====
section
/-! SUPPORT. One lemma per shared operation: everything it can do. -/

namespace Sys2Proof.Machine

/-- A byte of `BUF` depends on buffer storage and the number of the last reset only. -/
theorem bufByte_congr {cfg : Config} {s t : State} (hb : t.buf = s.buf) (he : t.epoch = s.epoch)
    (a : Nat) : bufByte cfg t a = bufByte cfg s a := by
  simp only [bufByte, unwritten, hb, he]

theorem memRead_congr {cfg : Config} {s t : State} (hb : t.buf = s.buf) (he : t.epoch = s.epoch)
    (a n : Nat) : memRead cfg t a n = memRead cfg s a n := by
  simp only [memRead, bufByte_congr hb he]

theorem payload_congr {cfg : Config} {s t : State} (hb : t.buf = s.buf) (he : t.epoch = s.epoch)
    (hl : t.len = s.len) : payload cfg t = payload cfg s := by
  rw [payload, payload, hl, memRead_congr hb he]

/-- A command that is accepted, on a buffer that exists, happens whole. -/
theorem command_accepted {cfg : Config} {i : Instr} {effect : State → State} {s : State}
    (ha : isAccepted cfg i s) (hl : s.len.toNat ≤ cfg.bufCap) :
    command cfg i effect s = .next (finishStep (effect (accept i s))) := by
  rw [command, if_neg (fun h => h.1 (by rw [inBuffer]; omega)), if_pos ha]

/-- A command that is not accepted changes what its `CMD` write changes. -/
theorem command_not_accepted {cfg : Config} {i : Instr} {effect : State → State} {s : State}
    (ha : ¬ isAccepted cfg i s) : command cfg i effect s = .next (issueInstr cfg i s) := by
  rw [command, if_neg (fun h => ha h.2), if_neg ha]

/-- Everything a command can do when it answers a next state: dropped, refused, or done whole. -/
theorem command_cases {cfg : Config} {i : Instr} {effect : State → State} {s t : State}
    (h : command cfg i effect s = .next t) :
    (s.status.busy = true ∧ t = dropWhileBusy s) ∨
    (s.status.busy = false ∧ ∃ c, refusalOf cfg i s = some c ∧ t = refuseCommand c s) ∨
    (isAccepted cfg i s ∧ s.len.toNat ≤ cfg.bufCap ∧ t = finishStep (effect (accept i s))) := by
  by_cases ha : isAccepted cfg i s
  · by_cases hl : s.len.toNat ≤ cfg.bufCap
    · rw [command_accepted ha hl] at h
      exact .inr (.inr ⟨ha, hl, (Host.Outcome.next.inj h).symm⟩)
    · rw [command, if_pos ⟨fun hi => hl (by rw [inBuffer] at hi; omega), ha⟩] at h
      exact nomatch h
  · rw [command_not_accepted ha] at h
    have ht := (Host.Outcome.next.inj h).symm
    cases hb : s.status.busy with
    | true => exact .inl ⟨rfl, by rw [ht, issueInstr, if_pos hb]⟩
    | false =>
      cases hr : refusalOf cfg i s with
      | none => exact (ha ⟨hb, hr⟩).elim
      | some c =>
        refine .inr (.inl ⟨rfl, c, rfl, ?_⟩)
        rw [ht, issueInstr, if_neg (by simp [hb]), hr]

/-- What the length preconditions of an accepted command give (R96). -/
theorem lengthRefusal_eq_none {cfg : Config} {i : Instr} {s : State}
    (h : lengthRefusal cfg i s = none) :
    (i = .encryptStd → s.len.toNat + 4 ≤ cfg.bufCap) ∧
    (i = .encryptAlt ∨ i = .decryptStd ∨ i = .decryptAlt → 4 ≤ s.len.toNat) := by
  cases i <;> simp [lengthRefusal] at h ⊢ <;> omega

/-- An accepted command meets R96: the table is valid and the length precondition holds. -/
theorem refusalOf_eq_none {cfg : Config} {i : Instr} {s : State} (h : refusalOf cfg i s = none) :
    s.status.fatal = false ∧ lengthRefusal cfg i s = none := by
  rw [refusalOf] at h
  split at h
  · exact nomatch h
  · next hf => exact ⟨by simpa using hf, h⟩

/-- Every byte of `BUF` after a cipher pass (R118). -/
theorem cipherPass_bufByte {cfg : Config} {s : State} (hw : Memory.wf (unwritten cfg s) s.buf)
    (k : Word) (a : Nat) :
    bufByte cfg (cipherPass cfg k s) a =
      if a < s.len.toNat then bufByte cfg s a ^^^ ksByte k a else bufByte cfg s a := by
  rw [bufByte_congr (s := memWrite cfg s 0 (cipher (payload cfg s) k)) (t := cipherPass cfg k s) rfl rfl,
    memWrite_bufByte hw,
    cipher_length, payload_length]
  by_cases h : a < s.len.toNat
  · rw [if_pos ⟨by omega, by omega⟩, if_pos h, Nat.sub_zero,
      cipher_getD _ _ _ (by rw [payload_length]; exact h), payload, memRead_getD _ _ _ _ _ h,
      Nat.zero_add]
  · rw [if_neg (by omega), if_neg h]

theorem cipherPass_wf {cfg : Config} {s : State} (hw : Memory.wf (unwritten cfg s) s.buf) (k : Word) :
    Memory.wf (unwritten cfg s) (cipherPass cfg k s).buf := memWrite_wf hw 0 _

theorem cipherPass_bound {cfg : Config} {s : State} {n : Nat} (hb : ∀ c ∈ s.buf, c.1 < n)
    (hl : s.len.toNat ≤ n) (k : Word) : ∀ c ∈ (cipherPass cfg k s).buf, c.1 < n :=
  Memory.bound_writeList hb (by rw [cipher_length, payload_length]; omega)

/-- Everything a port operation can do to the block's registers: nothing, a flag in `STATUS`, a new
`LEN`, one byte of `BUF`, or the issue of a command. -/
theorem hostOp_cases (cfg : Config) (o : HostOp) (s : State) :
    (∃ r n, hostOp cfg o s = { s with replies := s.replies ++ r, draws := n }) ∨
    hostOp cfg o s = dropWhileBusy s ∧ s.status.busy = true ∨
    (s.status.busy = false ∧
      (hostOp cfg o s = refuse .capacity s ∨
      (∃ n : Word, n.toNat ≤ cfg.bufCap ∧ hostOp cfg o s = { s with len := n }) ∨
      (∃ (a : Nat) (b : Byte), a < cfg.bufCap ∧ hostOp cfg o s = memWrite cfg s a [b]) ∨
      (∃ w, hostOp cfg o s = issue cfg w s))) := by
  cases hb : s.status.busy with
  | true =>
    cases o with
    | readReg r =>
      left; rw [hostOp, hostReadReg]
      split
      · exact ⟨_, _, rfl⟩
      · exact ⟨_, s.draws, rfl⟩
    | readBuf i => left; rw [hostOp, hostReadBuf, if_pos hb]; exact ⟨_, _, rfl⟩
    | readTable i => left; exact ⟨_, s.draws, rfl⟩
    | writeBuf i b => right; left; rw [hostOp, hostWriteBuf, if_pos hb]; exact ⟨rfl, rfl⟩
    | writeReg r v =>
      rw [hostOp, hostWriteReg]
      split
      · right; left
        refine ⟨?_, rfl⟩
        rw [issue]
        split
        · rw [issueInstr, if_pos hb]
        · rw [issueIllegal, if_pos hb]
      · split
        · right; left; rw [writeLen, if_pos hb]; exact ⟨rfl, rfl⟩
        · left; exact ⟨[], s.draws, by simp⟩
  | false =>
    cases o with
    | readReg r =>
      left; rw [hostOp, hostReadReg]
      split
      · exact ⟨_, _, rfl⟩
      · exact ⟨_, s.draws, rfl⟩
    | readBuf i =>
      left; rw [hostOp, hostReadBuf, if_neg (by simp [hb])]; exact ⟨_, s.draws, rfl⟩
    | readTable i => left; exact ⟨_, s.draws, rfl⟩
    | writeBuf i b =>
      right; right; refine ⟨rfl, ?_⟩
      rw [hostOp, hostWriteBuf, if_neg (by simp [hb])]
      split
      · next h => exact .inr (.inr (.inl ⟨_, _, h, rfl⟩))
      · exact .inl rfl
    | writeReg r v =>
      rw [hostOp, hostWriteReg]
      split
      · exact .inr (.inr ⟨rfl, .inr (.inr (.inr ⟨v, rfl⟩))⟩)
      · split
        · right; right; refine ⟨rfl, ?_⟩
          rw [writeLen, if_neg (by simp [hb])]
          split
          · next h => exact .inr (.inl ⟨v, h, rfl⟩)
          · exact .inl rfl
        · left; exact ⟨[], s.draws, by simp⟩

/-- Everything the issue of a command word can do: dropped, refused, or a legal command accepted. -/
theorem issue_cases (cfg : Config) (w : Word) (s : State) :
    (s.status.busy = true ∧ issue cfg w s = dropWhileBusy s) ∨
    (s.status.busy = false ∧ ∃ c, issue cfg w s = refuseCommand c s) ∨
    (∃ i, decode w = .ok i ∧ isAccepted cfg i s ∧ issue cfg w s = accept i s) := by
  cases hb : s.status.busy with
  | true =>
    left; refine ⟨rfl, ?_⟩
    rw [issue]; split
    · rw [issueInstr, if_pos hb]
    · rw [issueIllegal, if_pos hb]
  | false =>
    right
    rw [issue]; split
    · next i hd =>
      rw [issueInstr, if_neg (by simp [hb])]
      cases hr : refusalOf cfg i s with
      | none => exact .inr ⟨i, hd, ⟨hb, hr⟩, rfl⟩
      | some c => exact .inl ⟨rfl, c, rfl⟩
    · rw [issueIllegal, if_neg (by simp [hb])]
      exact .inl ⟨rfl, _, rfl⟩

/-- Everything an engine micro-step can do when it answers a next state, phase by phase (R31). -/
theorem engineStep_cases {cfg : Config} {s t : State} (h : engineStep cfg s = .next t) :
    (s.phase = .idle ∧ t = s) ∨
    (s.phase = .hinit ∧ t = hinitStep s) ∨
    (s.phase = .hash ∧ s.pos.toNat < s.len.toNat ∧ t = hashByte cfg s) ∨
    (s.phase = .hash ∧ s.pos = s.len ∧ (s.opl = 2 ∧ t = { s with crc := ~~~ s.acc, phase := .finish } ∨
      s.opl = 3 ∧ t = { s with crc := ~~~ s.acc, phase := .trail })) ∨
    (s.phase = .trail ∧ s.vl = 0 ∧ s.len.toNat + 4 ≤ cfg.bufCap ∧
      t = { appendTrailer cfg s with phase := .ksinit }) ∨
    (s.phase = .trail ∧ s.vl ≠ 0 ∧ 4 ≤ s.len.toNat ∧ s.len.toNat ≤ cfg.bufCap ∧
      t = { overlayTrailer cfg s with phase := .ksinit }) ∨
    (s.phase = .ksinit ∧ t = ksinitStep s) ∨
    (s.phase = .stride ∧ s.rem = 0 ∧ t = strideExit s) ∨
    (s.phase = .stride ∧ s.rem ≠ 0 ∧ s.pos.toNat + lanes s ≤ cfg.bufCap ∧ t = strideBody cfg s) ∨
    (s.phase = .post ∧ s.vl = 0 ∧ 4 ≤ s.len.toNat ∧ t = { dropTrailer s with phase := .finish }) ∨
    (s.phase = .post ∧ s.vl ≠ 0 ∧ 4 ≤ s.len.toNat ∧ s.len.toNat ≤ cfg.bufCap ∧
      t = { zeroTrailer cfg s with phase := .finish }) ∨
    (s.phase = .finish ∧ t = finishStep s) := by
  have inj : ∀ {a b : State}, (Host.Outcome.next a : Host.Outcome State Fault Refusal) = .next b →
      b = a := fun e => (Host.Outcome.next.inj e).symm
  rw [engineStep] at h
  cases hp : s.phase <;> rw [hp] at h <;> simp only at h <;>
    simp only [reduceCtorEq, false_and, true_and, false_or, or_false]
  case idle => exact inj h
  case hinit => exact inj h
  case ksinit => exact inj h
  case finish => exact inj h
  case hash =>
    rw [hashStep] at h
    split at h
    · next hlt =>
      split at h
      · exact .inl ⟨hlt, inj h⟩
      · exact nomatch h
    · split at h
      · next he =>
        rw [hashExit] at h
        split at h
        · next ho => exact .inr ⟨he, .inl ⟨ho, inj h⟩⟩
        · split at h
          · next ho => exact .inr ⟨he, .inr ⟨ho, inj h⟩⟩
          · exact nomatch h
      · exact nomatch h
  case trail =>
    rw [trailStep] at h
    split at h
    · next hv =>
      split at h
      · next hc => exact .inl ⟨hv, hc, inj h⟩
      · exact nomatch h
    · next hv =>
      split at h
      · next hc => exact .inr ⟨hv, hc.1, by simpa using hc.2, inj h⟩
      · exact nomatch h
  case stride =>
    rw [strideStep] at h
    split at h
    · next hr => exact .inl ⟨hr, inj h⟩
    · next hr =>
      split at h
      · next hc => exact .inr ⟨hr, hc, inj h⟩
      · exact nomatch h
  case post =>
    rw [postStep] at h
    split at h
    · next hv =>
      split at h
      · next hc => exact .inl ⟨hv, hc, inj h⟩
      · exact nomatch h
    · next hv =>
      split at h
      · next hc => exact .inr ⟨hv, hc.1, by simpa using hc.2, inj h⟩
      · exact nomatch h

end Sys2Proof.Machine
end

