-- ==== Sys2Proof/Laws/Exec.lean ====
section
/-! SUPPORT. Every command is the one shared operation `command` with its own big-step effect: what
`exec` can do is said once, for all seven. -/

namespace Sys2Proof.Machine

/-- The big-step effect that the meaning of each command hands to `command`. -/
def effectOf (cfg : Config) : Instr → State → State
  | .cipherStd => cipherPass cfg seedStd
  | .cipherAlt => cipherPass cfg seedAlt
  | .hash => hashPass cfg
  | .encryptStd => fun t => cipherPass cfg seedStd (appendTrailer cfg (hashPass cfg t))
  | .encryptAlt => fun t => cipherPass cfg seedAlt (overlayTrailer cfg (hashPass cfg t))
  | .decryptStd => fun t => dropTrailer (cipherPass cfg seedStd t)
  | .decryptAlt => fun t => zeroTrailer cfg (cipherPass cfg seedAlt t)

theorem exec_eq_command (i : Instr) (s : State) :
    exec i s = command Config.platform i (effectOf Config.platform i) s := by
  cases i <;> rfl

/-- Everything `exec` can do when it answers a next state. -/
theorem exec_cases {i : Instr} {s t : State} (h : exec i s = .next t) :
    (s.status.busy = true ∧ t = dropWhileBusy s) ∨
    (s.status.busy = false ∧ ∃ c, refusalOf Config.platform i s = some c ∧ t = refuseCommand c s) ∨
    (isAccepted Config.platform i s ∧ s.len.toNat ≤ Config.platform.bufCap ∧
      t = finishStep (effectOf Config.platform i (accept i s))) :=
  command_cases (exec_eq_command i s ▸ h)

/-- An accepted command on a buffer that exists happens whole. -/
theorem exec_accepted {i : Instr} {s : State} (ha : isAccepted Config.platform i s)
    (hl : s.len.toNat ≤ Config.platform.bufCap) :
    exec i s = .next (finishStep (effectOf Config.platform i (accept i s))) := by
  rw [exec_eq_command, command_accepted ha hl]

/-- A command that is not accepted changes what its `CMD` write changes. -/
theorem exec_not_accepted {i : Instr} {s : State} (ha : ¬ isAccepted Config.platform i s) :
    exec i s = .next (issueInstr Config.platform i s) := by
  rw [exec_eq_command, command_not_accepted ha]

/-- `exec` never refuses: every command has its meaning. -/
theorem exec_ne_refused (i : Instr) (s : State) (r : Refusal) : exec i s ≠ .refused r := by
  rw [exec_eq_command, command]
  split <;> exact fun h => nomatch h

/-- The parts of `effectOf`'s results that no effect touches: the host's side, `STATUS`, `OPL`, `VL`. -/
theorem effectOf_frame (cfg : Config) (i : Instr) (s : State) :
    (effectOf cfg i s).status = s.status ∧ (effectOf cfg i s).opl = s.opl ∧
    (effectOf cfg i s).vl = s.vl ∧ (effectOf cfg i s).inputs = s.inputs ∧
    (effectOf cfg i s).replies = s.replies ∧ (effectOf cfg i s).draws = s.draws ∧
    (effectOf cfg i s).epoch = s.epoch ∧ (effectOf cfg i s).phase = s.phase := by
  cases i <;> exact ⟨rfl, rfl, rfl, rfl, rfl, rfl, rfl, rfl⟩

end Sys2Proof.Machine
end

