-- ==== Sys2Proof/Laws/PerInstr.lean ====
section
/-! SUPPORT. The per-command family `CommandWord`: the command word of every command has legal fields
(spec/30_encoding.md R90, R93), no bit beyond the five that R90 uses, and the fields that acceptance
latches. -/

namespace Sys2Proof.Laws.CommandWord

/-- What holds of every command's word. -/
def Statement (i : Sys2Proof.Instr) : Prop :=
  i.wellFormed = true ∧ (Sys2Proof.encode i).toNat < 32 ∧
    Sys2Proof.fieldsOfWord (Sys2Proof.encode i) = i.fields

theorem cipherStd : Statement .cipherStd := by unfold Statement; decide
theorem cipherAlt : Statement .cipherAlt := by unfold Statement; decide
theorem hash : Statement .hash := by unfold Statement; decide
theorem encryptStd : Statement .encryptStd := by unfold Statement; decide
theorem encryptAlt : Statement .encryptAlt := by unfold Statement; decide
theorem decryptStd : Statement .decryptStd := by unfold Statement; decide
theorem decryptAlt : Statement .decryptAlt := by unfold Statement; decide

end Sys2Proof.Laws.CommandWord
end

