-- ==== Sys2Proof/Machine/Script.lean ====
section
/-! DEFINITION. Host scripts (spec/30_encoding.md R98, R99): the statements as lists of host events, and
the reading of a script's text. The points of the syntax that R98 leaves open are log 11. -/

namespace Sys2Proof.Machine

/-- The statement `cmd <mnemonic>` of R99: a bare write of the command word. -/
def scriptCmd (i : Instr) : List HostEvent := [.op (.writeReg 0 (encode i))]

/-- The pseudo-instruction `wlen n` of R99. -/
def scriptLen (n : Word) : List HostEvent := [.op (.writeReg 2 n)]

/-- `wbuf` of each byte, from index `i` on. DESIGN CHOICE (log 11): an index of 2^32 or more, which the
port cannot carry (R72), wraps modulo 2^32. -/
def scriptWrites (i : Nat) : List Byte → List HostEvent
  | [] => []
  | b :: bs => .op (.writeBuf (BitVec.ofNat 32 i) b) :: scriptWrites (i + 1) bs

/-- The pseudo-instruction `load [b0, ...]` of R99. DESIGN CHOICE (log 11): for a list of 2^32 bytes or
more, of which R99 says nothing, the indices and the count given to `wlen` wrap modulo 2^32. -/
def scriptLoad (bs : List Byte) : List HostEvent :=
  scriptWrites 0 bs ++ scriptLen (BitVec.ofNat 32 bs.length)

/-- `load P; cmd i; wait; store`: the pseudo-instructions `encrypt` and `decrypt` of R99, with and
without `--alt`. -/
def scriptTransform (i : Instr) (p : List Byte) : List HostEvent :=
  scriptLoad p ++ scriptCmd i ++ [.wait, .store]

/-- The value of a hexadecimal digit, of either case. -/
def digitValue (c : Char) : Option Nat :=
  if '0' ≤ c ∧ c ≤ '9' then some (c.toNat - 48)
  else if 'a' ≤ c ∧ c ≤ 'f' then some (c.toNat - 87)
  else if 'A' ≤ c ∧ c ≤ 'F' then some (c.toNat - 55)
  else none

/-- The value of digits in a base, after a first part of value `acc`. -/
def digitsValue (base acc : Nat) : List Char → Option Nat
  | [] => some acc
  | c :: cs =>
    match digitValue c with
    | some d => if d < base then digitsValue base (base * acc + d) cs else none
    | none => none

/-- A number, "decimal or `0x` hexadecimal" (R98), below `bound`. -/
def scriptNumber (bound : Nat) (tok : List Char) : Option Nat :=
  let value := match tok with
    | [] => none
    | '0' :: 'x' :: c :: cs => digitsValue 16 0 (c :: cs)
    | c :: cs => digitsValue 10 0 (c :: cs)
  value.filter (fun n => n < bound)

/-- The statements of a text, separated by `;` or a new line, without the comments that `#` starts
(R98); `cur` is the statement read so far, last character first. -/
def splitStatements (comment : Bool) (cur : List Char) : List Char → List (List Char)
  | [] => [cur.reverse]
  | c :: cs =>
    if c = '\n' then cur.reverse :: splitStatements false [] cs
    else if comment then splitStatements true cur cs
    else if c = '#' then splitStatements true cur cs
    else if c = ';' then cur.reverse :: splitStatements false [] cs
    else splitStatements false (c :: cur) cs

/-- A token that has been read, unless it is empty. -/
def endToken (cur : List Char) : List (List Char) := if cur.isEmpty then [] else [cur.reverse]

/-- The tokens of a statement: a comma and a bracket stand alone, blanks separate; `cur` is the token
read so far, last character first. DESIGN CHOICE (log 11): a tab and a carriage return are blanks too, so
that a line may end in a carriage return and a new line. -/
def splitTokens (cur : List Char) : List Char → List (List Char)
  | [] => endToken cur
  | c :: cs =>
    if c = ' ' ∨ c = '\t' ∨ c = '\r' then endToken cur ++ splitTokens [] cs
    else if c = ',' ∨ c = '[' ∨ c = ']' then endToken cur ++ [c] :: splitTokens [] cs
    else splitTokens (c :: cur) cs

/-- The bytes of a list after its first bracket, up to the last one. -/
def scriptBytes : List (List Char) → Option (List Byte)
  | [b, [']']] => (scriptNumber 256 b).map (fun n => [BitVec.ofNat 8 n])
  | b :: [','] :: rest =>
    match scriptNumber 256 b, scriptBytes rest with
    | some n, some bs => some (BitVec.ofNat 8 n :: bs)
    | _, _ => none
  | _ => none

/-- A list of bytes in brackets. -/
def scriptList : List (List Char) → Option (List Byte)
  | [['['], [']']] => some []
  | ['['] :: rest => scriptBytes rest
  | _ => none

/-- The command with a mnemonic of R98. -/
def scriptMnemonic (tok : List Char) : Option Instr :=
  allInstrs.find? (fun i => (mnemonicOf i).toList == tok)

/-- The keywords of R99. -/
inductive Keyword where
  | cmd
  | wreg
  | rreg
  | wbuf
  | rbuf
  | rtab
  | wlen
  | wait
  | load
  | store
  | encrypt
  | decrypt
  deriving DecidableEq, Repr

/-- The keyword that a token is. -/
def keywordOf (tok : List Char) : Option Keyword :=
  ([("cmd", Keyword.cmd), ("wreg", .wreg), ("rreg", .rreg), ("wbuf", .wbuf), ("rbuf", .rbuf),
    ("rtab", .rtab), ("wlen", .wlen), ("wait", .wait), ("load", .load), ("store", .store),
    ("encrypt", .encrypt), ("decrypt", .decrypt)].find? (fun k => k.1.toList == tok)).map (fun k => k.2)

/-- What a statement with keyword `k` and the arguments `args` stands for (R99). -/
def scriptStatement (k : Keyword) (args : List (List Char)) : Option (List HostEvent) :=
  match k, args with
  | .cmd, [m] => (scriptMnemonic m).map scriptCmd
  | .wreg, [r, [','], v] =>
    match scriptNumber 16 r, scriptNumber 4294967296 v with
    | some r, some v => some [.op (.writeReg (BitVec.ofNat 4 r) (BitVec.ofNat 32 v))]
    | _, _ => none
  | .rreg, [r] => (scriptNumber 16 r).map (fun r => [.op (.readReg (BitVec.ofNat 4 r))])
  | .wbuf, [i, [','], b] =>
    match scriptNumber 4294967296 i, scriptNumber 256 b with
    | some i, some b => some [.op (.writeBuf (BitVec.ofNat 32 i) (BitVec.ofNat 8 b))]
    | _, _ => none
  | .rbuf, [i] => (scriptNumber 4294967296 i).map (fun i => [.op (.readBuf (BitVec.ofNat 32 i))])
  | .rtab, [i] => (scriptNumber 256 i).map (fun i => [.op (.readTable (BitVec.ofNat 8 i))])
  | .wlen, [n] => (scriptNumber 4294967296 n).map (fun n => scriptLen (BitVec.ofNat 32 n))
  | .wait, [] => some [.wait]
  | .load, bs => (scriptList bs).map scriptLoad
  | .store, [] => some [.store]
  | .encrypt, ['-', '-', 'a', 'l', 't'] :: bs => (scriptList bs).map (scriptTransform .encryptAlt)
  | .encrypt, bs => (scriptList bs).map (scriptTransform .encryptStd)
  | .decrypt, ['-', '-', 'a', 'l', 't'] :: bs => (scriptList bs).map (scriptTransform .decryptAlt)
  | .decrypt, bs => (scriptList bs).map (scriptTransform .decryptStd)
  | _, _ => none

/-- The events of one statement, given as its tokens; the empty statement does nothing. -/
def scriptTokens : List (List Char) → Option (List HostEvent)
  | [] => some []
  | k :: args => (keywordOf k).bind (fun k => scriptStatement k args)

/-- The events of statements, in order; none if one of them is not a statement of R99. -/
def scriptStatements : List (List Char) → Option (List HostEvent)
  | [] => some []
  | st :: rest =>
    match scriptTokens (splitTokens [] st), scriptStatements rest with
    | some es, some rs => some (es ++ rs)
    | _, _ => none

/-- The host events of a script's text (R98, R99), none for a text that is no script. -/
def parseScript (text : List Char) : Option (List HostEvent) :=
  scriptStatements (splitStatements false [] text)

end Sys2Proof.Machine
end

