-- ==== Sys2Proof/Tests/Slice0.lean ====
section
/-! SUPPORT. The model's own tests. Expected values are those of spec/95_test_vectors.md (the vector is
named beside each test) or written out from the encoding of spec/30_encoding.md R90. After them, for
every obligation with hypotheses, states and operands that meet them. -/

namespace Sys2Proof.Tests

open Sys2Proof Sys2Proof.Machine

/-! ### Well-formed fields: one ill-formed term for each check (R90, R93) -/

theorem test_illformed_reserved :
    CmdFields.wellFormed { rsv := 1, v := 0, op := 1 } = false := by decide

theorem test_illformed_op_zero :
    CmdFields.wellFormed { rsv := 0, v := 0, op := 0 } = false := by decide

theorem test_illformed_op_five :
    CmdFields.wellFormed { rsv := 0, v := 0, op := 5 } = false := by decide

theorem test_illformed_hash_variant :
    CmdFields.wellFormed { rsv := 0, v := 1, op := 2 } = false := by decide

theorem test_every_command_wellformed : allInstrs.all Instr.wellFormed = true := by decide

/-! ### Decoding: every command's word, bit by bit as R90 lays it out (RSV 27 bits, V 1, OP 4) -/

theorem test_decode_cipherStd :
    decode 0b000000000000000000000000000_0_0001#32 = .ok .cipherStd := by decide

theorem test_decode_cipherAlt :
    decode 0b000000000000000000000000000_1_0001#32 = .ok .cipherAlt := by decide

theorem test_decode_hash :
    decode 0b000000000000000000000000000_0_0010#32 = .ok .hash := by decide

theorem test_decode_encryptStd :
    decode 0b000000000000000000000000000_0_0011#32 = .ok .encryptStd := by decide

theorem test_decode_encryptAlt :
    decode 0b000000000000000000000000000_1_0011#32 = .ok .encryptAlt := by decide

theorem test_decode_decryptStd :
    decode 0b000000000000000000000000000_0_0100#32 = .ok .decryptStd := by decide

theorem test_decode_decryptAlt :
    decode 0b000000000000000000000000000_1_0100#32 = .ok .decryptAlt := by decide

/-- TV51: the illegal words the spec lists. -/
theorem test_illegal_words :
    ([0x00000000, 0x00000005, 0x0000000F, 0x00000012, 0x00000015, 0x00000021, 0x00000103, 0x80000001,
      0xFFFFFFFF].all fun w => decodeTableWord 32 w == none) = true := by decide

/-- R98, R92. -/
theorem test_assemble : assemble "encrypt.alt" = some 0x00000013 ∧ assemble "encrypt" = none := by
  decide

/-! ### The vectors of 95_test_vectors.md, under its stand-in table and `BUFCAP = 16` -/

/-- The stand-in table `TT` of section 2.5. -/
def standInTable (i : BitVec 8) : Word := BitVec.ofNat 32 (i.toNat * 0x9E3779B1 + 0x7F4A7C15)

/-- A block with the stand-in table, 16 bytes of storage and some contents after reset. -/
def testConfig : Config where
  table := standInTable
  tableValid := true
  bufCap := 16
  bufReset := fun n i => BitVec.ofNat 8 (0x90 + 16 * n + i)
  invalidTable := fun n i => BitVec.ofNat 32 (0xE0000000 + 256 * n + i.toNat)
  freeWord := fun n => BitVec.ofNat 32 (0xD0000000 + n)
  freeByte := fun n => BitVec.ofNat 8 (0xC0 + n)

/-- The block after reset with `bs` loaded (R99 `load`). -/
def loaded (bs : List Byte) : State :=
  { memWrite testConfig (State.afterReset true 0 [] [] 0) 0 bs with len := BitVec.ofNat 32 bs.length }

/-- The outcome is a next state with the property. -/
def nextIs (o : Host.Outcome State Fault Refusal) (p : State → Bool) : Bool :=
  match o with
  | .next t => p t
  | .fault _ => false
  | .refused _ => false

/-- The commands under `testConfig`. -/
def testExec (i : Instr) (s : State) : Host.Outcome State Fault Refusal :=
  match i with
  | .cipherStd => cmdCipherStd testConfig s
  | .cipherAlt => cmdCipherAlt testConfig s
  | .hash => cmdHash testConfig s
  | .encryptStd => cmdEncryptStd testConfig s
  | .encryptAlt => cmdEncryptAlt testConfig s
  | .decryptStd => cmdDecryptStd testConfig s
  | .decryptAlt => cmdDecryptAlt testConfig s

/-- TV1, TV2. -/
theorem test_ksInit :
    ksInit 0x3F6CA177 = ⟨0xB664953A, 0x572C895D, 0xAC920115, 0x02C7C12D⟩ ∧
    ksInit 0x000000B8 = ⟨0x154F048D, 0x02B3D1CD, 0x43A3D2F9, 0x617E9602⟩ := by decide

/-- TV4, TV5: other seeds, with a multiplication that wraps. -/
theorem test_ksInit_any_seed :
    ksInit 1 = ⟨0x001DA597, 0xEFD749FF, 0x941B4DBA, 0xC5778D05⟩ ∧
    ksInit 0xFFFFFFFF = ⟨0xF81DA596, 0x3F72EF94, 0xA7FE9F4C, 0x39A6A394⟩ := by decide

/-- TV10, TV11: keystream words. -/
theorem test_ksWord :
    ksWord 0x3F6CA177 0 = 0x9098490A ∧ ksWord 0x3F6CA177 3 = 0xA3990F89 ∧
    ksWord 0x000000B8 0 = 0x0C789DCC ∧ ksWord 0x000000B8 2 = 0xCDB024CF := by decide

/-- TV22: seven bytes, a partial last stride; `POS` 8, the byte past `LEN` untouched. -/
theorem test_cipherStd :
    nextIs (cmdCipherStd testConfig (loaded [0x41, 0x42, 0x43, 0x44, 0x45, 0x46, 0x47])) (fun t =>
      memRead testConfig t 0 8 == [0x4B, 0x0B, 0xDB, 0xD4, 0x60, 0x1A, 0x8A, 0x97] &&
      t.pos == 8 && t.rem == 0 && t.v1 == 0xAC920115 && t.v4 == 0xA3CD5C25 &&
      t.status.toWord == 0x02) = true := by decide

/-- TV25. -/
theorem test_cipherAlt :
    nextIs (cmdCipherAlt testConfig (loaded [0x41, 0x42, 0x43, 0x44, 0x45, 0x46, 0x47])) (fun t =>
      payload testConfig t == [0x8D, 0xDF, 0x3B, 0x48, 0x72, 0x5E, 0x9E] && t.pos == 8 &&
      t.seed == 0xB8 && t.vl == 1) = true := by decide

/-- TV32. -/
theorem test_hash :
    nextIs (cmdHash testConfig (loaded [0x41, 0x42, 0x43])) (fun t =>
      t.crc == 0x9C7726E6 && t.acc == 0x6388D919 && t.pos == 3 && t.len == 3) = true := by decide

/-- TV31, TV33: the empty buffer. -/
theorem test_hash_empty :
    nextIs (cmdHash testConfig (loaded [])) (fun t => t.crc == 0 && t.acc == 0xFFFFFFFF) = true := by
  decide

/-- TV40. -/
theorem test_encryptStd :
    nextIs (cmdEncryptStd testConfig (loaded [0x41])) (fun t =>
      payload testConfig t == [0x4B, 0xC5, 0x55, 0xE6, 0xC9] && t.len == 5 && t.crc == 0xEC76CD8C &&
      t.acc == 0x13893273 && t.pos == 8) = true := by decide

/-- TV52: no room for the trailer; `DONE` is cleared, only `STATUS` changes. -/
theorem test_encryptStd_capacity :
    nextIs (cmdEncryptStd testConfig { loaded [] with len := 13 }) (fun t =>
      t.status.toWord == 0x30 && t.len == 13 && t.crc == 0) = true := by decide

/-- TV42. -/
theorem test_encryptAlt :
    nextIs (cmdEncryptAlt testConfig (loaded [0, 0, 0, 0])) (fun t =>
      payload testConfig t == [0xA2, 0x26, 0x4D, 0xF8] && t.len == 4 && t.crc == 0xF435BB6E &&
      t.v1 == 0x02B3D1CD) = true := by decide

/-- TV41: the decrypted trailer stays in storage. -/
theorem test_decryptStd :
    nextIs (cmdDecryptStd testConfig (loaded [0x4B, 0x49, 0x98, 0x90, 0x25])) (fun t =>
      t.len == 1 && memRead testConfig t 0 5 == [0x41, 0, 0, 0, 0] && t.pos == 8 && t.crc == 0) = true := by
  decide

/-- TV50: shorter than the trailer. -/
theorem test_decryptStd_length :
    nextIs (cmdDecryptStd testConfig (loaded [1, 2, 3])) (fun t =>
      t.status.toWord == 0x20 && payload testConfig t == [1, 2, 3]) = true := by decide

/-- TV46: the wrong variant is not noticed. -/
theorem test_decryptAlt :
    nextIs (cmdDecryptAlt testConfig (loaded [0x4B, 0x0B, 0xDB, 0x76, 0x03, 0x2B, 0x51])) (fun t =>
      payload testConfig t == [0x87, 0x96, 0xA3, 0, 0, 0, 0] && t.len == 7) = true := by decide

/-- TV56: TABLE outranks ILLEGAL. -/
theorem test_fatal_first :
    (issue testConfig 0x77 { loaded [] with
      status := (State.afterReset false 0 [] [] 0).status }).status.toWord = 0x44 := by decide

/-- P4: acceptance leaves `STATUS` 01; then a `BUF` write while busy gives 09 and writes nothing. -/
theorem test_write_while_busy :
    (hostOp testConfig (.writeBuf 0 0x99) (issue testConfig 3 (loaded [0x41]))).status.toWord = 0x09 ∧
    bufByte testConfig (hostOp testConfig (.writeBuf 0 0x99) (issue testConfig 3 (loaded [0x41]))) 0
      = 0x41 := by decide

/-- TV54: out of range when idle: a write is dropped with CAPACITY, a read gives 00. -/
theorem test_buffer_out_of_range :
    (hostOp testConfig (.writeBuf 16 0) (loaded [])).status.toWord = 0x30 ∧
    (hostOp testConfig (.readBuf 16) (loaded [])).replies = [.byte 0] := by decide

/-- R63: word `i` of a little-endian blob is at offset `4 i`; a blob of another size gives no table. -/
theorem test_table_blob :
    blobWord leWord [0, 0, 0, 0, 0x78, 0x56, 0x34, 0x12] 4 = 0x12345678 ∧
    (tableOfBlob leWord [0x78, 0x56, 0x34, 0x12]).isNone = true := by decide

/-- R98, R99: statements, a comment, both number formats. -/
theorem test_script_text :
    parseScript "wbuf 0, 0x41; wlen 1 # one byte; not a statement\ncmd encrypt.alt; wait".toList =
      some [.op (.writeBuf 0 0x41), .op (.writeReg 2 1), .op (.writeReg 0 0x13), .wait] := by decide

/-- R99: `load`, and `decrypt --alt` as its expansion; a text that is no script. -/
theorem test_script_pseudo :
    parseScript "load [1, 0xFf]".toList =
      some [.op (.writeBuf 0 1), .op (.writeBuf 1 0xFF), .op (.writeReg 2 2)] ∧
    parseScript "decrypt --alt [7]".toList =
      some [.op (.writeBuf 0 7), .op (.writeReg 2 1), .op (.writeReg 0 0x14), .wait, .store] ∧
    parseScript "wbuf 0, 256".toList = none := by decide

/-- R231 and TV40: nine micro-steps of `encrypt.std` on one byte give the state of the atomic command. -/
theorem test_micro_steps_encryptStd :
    nextIs (engineRun testConfig (microSteps .encryptStd 1) (accept .encryptStd (loaded [0x41])))
      (fun t => nextIs (cmdEncryptStd testConfig (loaded [0x41])) (fun u => decide (t = u))) = true := by
  decide

/-- The first step after reset with a command word delivered answers a next state, for every command,
whatever the configuration is. -/
theorem test_first_step_runs :
    ([0x1, 0x11, 0x2, 0x3, 0x13, 0x4, 0x14].all fun w =>
      nextIs (step (State.reset.withFetchWord 32 w)) (fun _ => true)) = true := by decide

/-- R184: on a block whose strap was 0 at reset, the same step is the refusal TABLE. -/
theorem test_step_fatal :
    nextIs (stepWith testConfig testExec
      ((State.afterReset false 0 [] [] 0).withFetchWord 32 0x1)) (fun t =>
        t.status.toWord == 0x44) = true := by decide

/-! ### Witnesses: states and operands that meet each obligation's hypotheses -/

/-- An idle block with a valid table, four bytes loaded and `LEN = n`. -/
def demo (n : Nat) : State :=
  { memWrite Config.platform (State.afterReset true 0 [] [] 0) 0 [0x41, 0x42, 0x43, 0x44] with
    len := BitVec.ofNat 32 n }

/-- `demo n` in a running command. -/
def demoBusy (n : Nat) (p : Phase) (op : BitVec 4) (v : BitVec 1) : State :=
  { demo n with
    status := { busy := true, done := false, fatal := false, wrbusy := false, err := .noRefusal }
    phase := p, opl := op, vl := v }

theorem demo_wf (n : Nat) : Memory.wf (unwritten Config.platform (demo n)) (demo n).buf :=
  memWrite_wf Memory.wf_nil 0 _

theorem demo_bound (n : Nat) : ∀ c ∈ (demo n).buf, c.1 < Config.platform.bufCap :=
  Memory.bound_writeList (fun _ h => nomatch h) (by
    show 0 + 4 ≤ _
    have := platform_bufCap_ge
    omega)

theorem demo_len {n : Nat} (h : n ≤ 4) : (demo n).len.toNat = n := by
  show (BitVec.ofNat 32 n).toNat = n
  rw [BitVec.toNat_ofNat]; omega

theorem demo_ready {n : Nat} (h : n ≤ 4) : Ready Config.platform (demo n) :=
  ⟨rfl, rfl, by have := demo_len h; have := platform_bufCap_ge; omega⟩

theorem demo_inv {n : Nat} (h : n ≤ 4) : Inv Config.platform (demo n) where
  lenBound := (demo_ready h).2.2
  posBound := Nat.zero_le _
  busyClean := fun h => nomatch h
  idleIff := ⟨fun _ => rfl, fun _ => rfl⟩
  fatalIdle := fun h => nomatch h
  seedLegal := .inl rfl
  bufWf := demo_wf n
  bufBound := demo_bound n
  phaseInv := trivial

theorem demoBusy_inv {n : Nat} (h : n ≤ 4) {p : Phase} {op : BitVec 4} {v : BitVec 1} (hp : p ≠ .idle)
    (hi : PhaseInv Config.platform (demoBusy n p op v)) :
    Inv Config.platform (demoBusy n p op v) where
  lenBound := (demo_ready h).2.2
  posBound := Nat.zero_le _
  busyClean := fun _ => ⟨rfl, rfl⟩
  idleIff := ⟨fun h => absurd h hp, fun h => nomatch h⟩
  fatalIdle := fun h => nomatch h
  seedLegal := .inl rfl
  bufWf := demo_wf n
  bufBound := demo_bound n
  phaseInv := hi

/-- `ResetInputFromAnyState`: the reset is next, for both levels of the strap, also while busy. -/
theorem witness_reset_input :
    (State.reset.withFetchWord 32 1).inputs ≠ [] ∧
    ({ demoBusy 4 .stride 1 0 with inputs := [.reset true] } : State).inputs = .reset true :: [] ∧
    ({ demo 4 with inputs := [.reset false] } : State).inputs = .reset false :: [] := by
  exact ⟨fun h => (nomatch h), rfl, rfl⟩

/-- `IllegalWordsAreRefusedWithCodeIllegal`: an idle block with a valid table, and illegal words at the
edges of each class. -/
theorem witness_illegal_word :
    (demo 4).status.busy = false ∧ (demo 4).status.fatal = false ∧
    (∃ e, decode 0x0 = .error e) ∧ (∃ e, decode 0x5 = .error e) ∧ (∃ e, decode 0xF = .error e) ∧
    (∃ e, decode 0x12 = .error e) ∧ (∃ e, decode 0x21 = .error e) ∧
    (∃ e, decode 0x80000001 = .error e) :=
  ⟨rfl, rfl, ⟨.illegalOp, by decide⟩, ⟨.illegalOp, by decide⟩, ⟨.illegalOp, by decide⟩,
    ⟨.hashVariant, by decide⟩, ⟨.reservedBits, by decide⟩, ⟨.reservedBits, by decide⟩⟩

/-- `CommandIssueFollowsTheAcceptanceOrder`, `RegisterReadsWhenIdle`, `LenWritesWhenIdle`,
`IdleReadsRepeat`: an idle block,
also one with an invalid table. -/
theorem witness_idle :
    (demo 3).status.busy = false ∧ (demo 4).status.busy = false ∧
    ({ demo 4 with status := (State.afterReset false 0 [] [] 0).status } : State).status.busy = false ∧
    ({ demo 4 with status := (State.afterReset false 0 [] [] 0).status } : State).status.fatal = true := by
  exact ⟨rfl, rfl, rfl, rfl⟩

/-- `RefusedCommandsChangeOnlyStatus`: each refusal's condition, LENGTH and CAPACITY at their edges. -/
theorem witness_refusals :
    ((demo 3).status.busy = false ∧ (demo 3).status.fatal = false ∧ (demo 3).len.toNat < 4) ∧
    ((demo Config.platform.bufCap).status.busy = false ∧
      (demo (Config.platform.bufCap - 3)).status.fatal = false ∧
      (demo (Config.platform.bufCap - 3)).len.toNat + 4 > Config.platform.bufCap) ∧
    ({ demo 4 with status := (State.afterReset false 0 [] [] 0).status } : State).status.fatal = true := by
  refine ⟨⟨rfl, rfl, ?_⟩, ⟨rfl, rfl, ?_⟩, rfl⟩
  · rw [demo_len (by omega)]; omega
  · show (BitVec.ofNat 32 (Config.platform.bufCap - 3)).toNat + 4 > _
    have := platform_bufCap_ge
    have := platform_bufCap_le
    rw [BitVec.toNat_ofNat]; omega

/-- `WritesWhileBusyAreDropped`, `ReadsWhileBusy`, `RefusedCommandsChangeOnlyStatus`: a busy block with a valid table, and register numbers
at the edges of each clause. -/
theorem witness_busy :
    (demoBusy 4 .stride 1 0).status.busy = true ∧ (demoBusy 4 .stride 1 0).status.fatal = false ∧
    ((1 : BitVec 4) ≠ 0 ∧ (1 : BitVec 4) ≠ 2) ∧ ((15 : BitVec 4) ≠ 0 ∧ (15 : BitVec 4) ≠ 2) ∧
    12 ≤ (12 : BitVec 4).toNat ∧ 12 ≤ (15 : BitVec 4).toNat ∧
    (2 ≤ (2 : BitVec 4).toNat ∧ (2 : BitVec 4).toNat ≤ 10) ∧
    (2 ≤ (10 : BitVec 4).toNat ∧ (10 : BitVec 4).toNat ≤ 10) ∧
    ((demoBusy 4 .ksinit 1 0).status.busy = true ∧ Inv Config.platform (demoBusy 4 .ksinit 1 0)) := by
  refine ⟨rfl, rfl, ⟨?_, ?_⟩, ⟨?_, ?_⟩, ?_, ?_, ⟨?_, ?_⟩, ⟨?_, ?_⟩, rfl,
    demoBusy_inv (le_refl 4) (by decide)
      ⟨.inl rfl, fun h => absurd h (show ¬ (1 : BitVec 4) = 4 by decide)⟩⟩ <;> decide

/-- `BufferPortWhenIdle`, `LenAndBufWritesAreIdempotent`: the last index of storage and the first beyond it. -/
theorem witness_buffer_port :
    (demo 4).status.busy = false ∧ Memory.wf (unwritten Config.platform (demo 4)) (demo 4).buf ∧
    (BitVec.ofNat 32 (Config.platform.bufCap - 1) : Word).toNat < Config.platform.bufCap ∧
    Config.platform.bufCap ≤ (BitVec.ofNat 32 Config.platform.bufCap : Word).toNat := by
  have := platform_bufCap_ge
  have := platform_bufCap_le
  refine ⟨rfl, demo_wf 4, ?_, ?_⟩ <;> rw [BitVec.toNat_ofNat] <;> omega

/-- `KsinitMicroStep`, `HinitMicroStep`, `FinishMicroStep`: the phases, for both variants. -/
theorem witness_phases :
    (demoBusy 4 .ksinit 1 0).phase = .ksinit ∧ (demoBusy 4 .ksinit 4 1).phase = .ksinit ∧
    (demoBusy 4 .hinit 2 0).phase = .hinit ∧ (demoBusy 4 .finish 1 0).phase = .finish := by
  exact ⟨rfl, rfl, rfl, rfl⟩

/-- `StrideMicroStep`: a full stride and a partial one. -/
theorem witness_stride :
    ∀ r : Word, r = 1 ∨ r = 4 →
      ({ demoBusy 4 .stride 1 0 with rem := r } : State).phase = .stride ∧
      ({ demoBusy 4 .stride 1 0 with rem := r } : State).rem ≠ 0 ∧
      ({ demoBusy 4 .stride 1 0 with rem := r } : State).pos.toNat + min 4 r.toNat
        ≤ Config.platform.bufCap ∧
      Memory.wf (unwritten Config.platform { demoBusy 4 .stride 1 0 with rem := r })
        ({ demoBusy 4 .stride 1 0 with rem := r } : State).buf := by
  have := platform_bufCap_ge
  intro r hr
  refine ⟨rfl, ?_, ?_, demo_wf 4⟩
  · rcases hr with rfl | rfl <;> exact fun h => absurd h (show ¬ (_ : Word) = 0 by decide)
  · show 0 + min 4 r.toNat ≤ _
    omega

/-- `StrideExitMicroStep`: `REM = 0`, before POST and before FINISH. -/
theorem witness_stride_exit :
    (demoBusy 4 .stride 4 0).phase = .stride ∧ (demoBusy 4 .stride 4 0).rem = 0 ∧
    (demoBusy 4 .stride 4 0).opl = 4 ∧ (demoBusy 4 .stride 1 0).opl ≠ 4 := by
  refine ⟨rfl, rfl, rfl, ?_⟩
  exact fun h => absurd h (show ¬ (1 : BitVec 4) = 4 by decide)

/-- `CipherStdResult`, `CipherAltResult`, `HashResult`, `CipherTwiceRestoresTheBuffer`: a ready block,
with no byte, with a partial stride, with a full one. -/
theorem witness_ready :
    (Ready Config.platform (demo 0) ∧
      Memory.wf (unwritten Config.platform (demo 0)) (demo 0).buf) ∧
    (Ready Config.platform (demo 3) ∧
      Memory.wf (unwritten Config.platform (demo 3)) (demo 3).buf) ∧
    (Ready Config.platform (demo 4) ∧
      Memory.wf (unwritten Config.platform (demo 4)) (demo 4).buf) :=
  ⟨⟨demo_ready (by omega), demo_wf _⟩, ⟨demo_ready (by omega), demo_wf _⟩,
    ⟨demo_ready (by omega), demo_wf _⟩⟩

/-- `EncryptStdResult`, `StandardRoundTripOnTheMachine`: the shortest buffer, and the longest one that
has room for the trailer. -/
theorem witness_encryptStd :
    (Ready Config.platform (demo 0) ∧ (demo 0).len.toNat + 4 ≤ Config.platform.bufCap ∧
      Memory.wf (unwritten Config.platform (demo 0)) (demo 0).buf) ∧
    (Ready Config.platform (demo (Config.platform.bufCap - 4)) ∧
      (demo (Config.platform.bufCap - 4)).len.toNat + 4 ≤ Config.platform.bufCap ∧
      Memory.wf (unwritten Config.platform (demo (Config.platform.bufCap - 4)))
        (demo (Config.platform.bufCap - 4)).buf) := by
  have h1 := platform_bufCap_ge
  have h2 := platform_bufCap_le
  have h3 : (demo (Config.platform.bufCap - 4)).len.toNat = Config.platform.bufCap - 4 := by
    show (BitVec.ofNat 32 (Config.platform.bufCap - 4)).toNat = _
    rw [BitVec.toNat_ofNat]; omega
  refine ⟨⟨demo_ready (by omega), ?_, demo_wf _⟩, ⟨rfl, rfl, ?_⟩, ?_, demo_wf _⟩
  · rw [demo_len (by omega)]; omega
  · rw [h3]; omega
  · rw [h3]; omega

/-- `EncryptAltResult`, `DecryptStdResult`, `DecryptAltResult`, `AlternateRoundTripOnTheMachine`: the
shortest buffer that has a trailer. -/
theorem witness_four_bytes :
    Ready Config.platform (demo 4) ∧ 4 ≤ (demo 4).len.toNat ∧
    Memory.wf (unwritten Config.platform (demo 4)) (demo 4).buf :=
  ⟨demo_ready (le_refl 4), (demo_len (le_refl 4)).ge, demo_wf 4⟩

/-- `HashByteMicroStep`: the first byte and the last one. -/
theorem witness_hash_byte :
    ∀ p : Word, p = 0 ∨ p = 3 →
      ({ demoBusy 4 .hash 2 0 with pos := p } : State).phase = .hash ∧
      ({ demoBusy 4 .hash 2 0 with pos := p } : State).pos.toNat < (demo 4).len.toNat ∧
      (demo 4).len.toNat ≤ Config.platform.bufCap := by
  intro p hp
  refine ⟨rfl, ?_, (demo_ready (le_refl 4)).2.2⟩
  rw [demo_len (le_refl 4)]
  rcases hp with rfl | rfl <;> decide

/-- `HashExitMicroStep`: for `hash` and for `encrypt`. -/
theorem witness_hash_exit :
    (demoBusy 0 .hash 2 0).phase = .hash ∧ (demoBusy 0 .hash 2 0).pos = (demoBusy 0 .hash 2 0).len ∧
    (demoBusy 0 .hash 2 0).opl = 2 ∧ (demoBusy 0 .hash 3 1).opl = 3 := by
  exact ⟨rfl, rfl, rfl, rfl⟩

/-- `TrailStdMicroStep`. -/
theorem witness_trail_std :
    (demoBusy 0 .trail 3 0).phase = .trail ∧ (demoBusy 0 .trail 3 0).vl = 0 ∧
    (demoBusy 0 .trail 3 0).len.toNat + 4 ≤ Config.platform.bufCap ∧
    Memory.wf (unwritten Config.platform (demoBusy 0 .trail 3 0)) (demoBusy 0 .trail 3 0).buf := by
  have := platform_bufCap_ge
  exact ⟨rfl, rfl, by show 0 + 4 ≤ _; omega, demo_wf 0⟩

/-- `TrailAltMicroStep`, `PostStdMicroStep`, `PostAltMicroStep`. -/
theorem witness_trail_alt_post :
    ((demoBusy 4 .trail 3 1).phase = .trail ∧ (demoBusy 4 .trail 3 1).vl = 1) ∧
    ((demoBusy 4 .post 4 0).phase = .post ∧ (demoBusy 4 .post 4 0).vl = 0) ∧
    ((demoBusy 4 .post 4 1).phase = .post ∧ (demoBusy 4 .post 4 1).vl = 1) ∧
    4 ≤ (demo 4).len.toNat ∧ (demo 4).len.toNat ≤ Config.platform.bufCap ∧
    Memory.wf (unwritten Config.platform (demo 4)) (demo 4).buf :=
  ⟨⟨rfl, rfl⟩, ⟨rfl, rfl⟩, ⟨rfl, rfl⟩, (demo_len (le_refl 4)).ge, (demo_ready (le_refl 4)).2.2,
    demo_wf 4⟩

/-- `ByteListRoundTrips`: the premise of its second clause, at its edge. -/
theorem witness_byte_list : 4 ≤ ([1, 2, 3, 4] : List Byte).length := by decide

/-- `StepRunsTheDecodedCommand`: a legal word and an illegal one, delivered next. -/
theorem witness_step_runs :
    ((demo 4).withFetchWord 32 0x14).inputs = .run 0x14 :: [] ∧ decode 0x14 = .ok .decryptAlt ∧
    ((demo 4).withFetchWord 32 0x12).inputs = .run 0x12 :: [] ∧
    decode 0x12 = .error .hashVariant := by decide

/-- `StepTakesTheNextEvent`: a state for each event. -/
theorem witness_step_events :
    (demo 4).inputs = [] ∧ (demo 4).phase = .idle ∧
    ({ demo 4 with inputs := [.op (.readReg 2)] } : State).inputs = [.op (.readReg 2)] ∧
    ({ demo 4 with inputs := [.pass] } : State).inputs = [.pass] ∧
    ({ demoBusy 4 .ksinit 1 0 with inputs := [.wait] } : State).status.busy = true ∧
    ({ demo 4 with inputs := [.wait] } : State).status.busy = false ∧
    ({ demo 4 with inputs := [.store] } : State).status.busy = false ∧
    ({ demoBusy 4 .stride 1 0 with inputs := [.store] } : State).status.busy = true := by
  exact ⟨rfl, rfl, rfl, rfl, rfl, rfl, rfl, rfl⟩

/-- `ScriptEndsWithItsLastCommand`: an accepted command as one event and as a bare write, and a refused
one. -/
theorem witness_script_end :
    (({ demo 4 with inputs := [.run (encode .hash)] } : State).status.wrbusy = false ∧
      ({ demo 4 with inputs := [.run (encode .hash)] } : State).len.toNat ≤ Config.platform.bufCap ∧
      isAccepted Config.platform .hash { demo 4 with inputs := [.run (encode .hash)] }) ∧
    isAccepted Config.platform .hash { demo 4 with inputs := [.op (.writeReg 0 (encode .hash))] } ∧
    (({ demo 3 with inputs := [.run (encode .decryptStd)] } : State).status.busy = false ∧
      ({ demo 3 with inputs := [.run (encode .decryptStd)] } : State).len.toNat
        ≤ Config.platform.bufCap ∧
      refusalOf Config.platform .decryptStd { demo 3 with inputs := [.run (encode .decryptStd)] }
        = some .length) := by
  refine ⟨⟨rfl, (demo_ready (le_refl 4)).2.2, rfl, rfl⟩, ⟨rfl, rfl⟩, rfl,
    (demo_ready (n := 3) (by omega)).2.2, ?_⟩
  have h3 : (demo 3).len.toNat < 4 := by rw [demo_len (by omega)]; omega
  show (if (demo 3).len.toNat < 4 then some RefusalCode.length else none) = _
  exact if_pos h3

/-- `StepKeepsTheInvariant`, `NoStepStopsUnderTheInvariant`: the invariant holds idle and in phases of a
running command, and there the step answers a next state. -/
theorem witness_invariant :
    Inv Config.platform (demo 4) ∧ Inv Config.platform (demoBusy 4 .ksinit 4 1) ∧
    Inv Config.platform (demoBusy 4 .hash 2 0) ∧ Inv Config.platform (demoBusy 4 .post 4 0) ∧
    (∃ t, step (demo 4) = .next t) ∧ ∃ t, step (demoBusy 4 .ksinit 4 1) = .next t := by
  have h4 : 4 ≤ (demo 4).len.toNat := (demo_len (le_refl 4)).ge
  refine ⟨demo_inv (le_refl 4), demoBusy_inv (le_refl 4) (by decide) ⟨.inr (.inr rfl), fun _ => h4⟩,
    demoBusy_inv (le_refl 4) (by decide)
      ⟨.inl rfl, fun h => absurd h (show ¬ (2 : BitVec 4) = 3 by decide), Nat.zero_le _⟩,
    demoBusy_inv (le_refl 4) (by decide) ⟨rfl, h4⟩, ⟨_, rfl⟩, ⟨_, rfl⟩⟩

/-- `MicroStepsRefineTheBigStep`: every command is accepted by some state that meets the invariant. -/
theorem witness_accepted :
    ∀ i : Instr, i ≠ .encryptStd →
      Inv Config.platform (demo 4) ∧ isAccepted Config.platform i (demo 4) := by
  intro i hi
  refine ⟨demo_inv (le_refl 4), rfl, ?_⟩
  have h4 := demo_len (le_refl 4)
  rw [refusalOf, if_neg (by simp [demo, State.afterReset])]
  cases i <;> simp [lengthRefusal, h4] at hi ⊢

/-- The same for `encrypt.std`, on the empty buffer. -/
theorem witness_accepted_encryptStd :
    Inv Config.platform (demo 0) ∧ isAccepted Config.platform .encryptStd (demo 0) := by
  refine ⟨demo_inv (by omega), rfl, ?_⟩
  have := platform_bufCap_ge
  rw [refusalOf, if_neg (by simp [demo, State.afterReset])]
  exact if_neg (show ¬ 0 + 4 > _ by omega)

/-- `OnlyResetClearsWrbusyAndFatal`: a step that is no reset, in a state with `WRBUSY` set. -/
theorem witness_wrbusy :
    ∃ s t : State, step s = .next t ∧ s.status.wrbusy = true ∧
      ∀ v rest, s.inputs ≠ .reset v :: rest :=
  ⟨dropWhileBusy (demo 4), dropWhileBusy (demo 4), rfl, rfl, fun _ _ h => nomatch h⟩

/-- `CrcIsWrittenOnlyByTheChecksumEngine`: a step that changes `CRC`. -/
theorem witness_crc_written :
    ∃ s t : State, step s = .next t ∧ t.crc ≠ s.crc :=
  ⟨demoBusy 0 .hash 2 0, { demoBusy 0 .hash 2 0 with crc := ~~~ 0, phase := .finish }, rfl,
    fun h => absurd h (show ¬ ~~~ (0 : Word) = 0 by decide)⟩

/-- `CommandsTouchNoByteBeyondTheTrailer`: an accepted command that answers, and one that is refused. -/
theorem witness_touch :
    (∃ t, exec .encryptStd (demo 0) = .next t) ∧ (∃ t, exec .decryptStd (demo 3) = .next t) ∧
    ¬ isAccepted Config.platform .decryptStd (demo 3) ∧
    Memory.wf (unwritten Config.platform (demo 3)) (demo 3).buf := by
  have h3 := demo_len (n := 3) (by omega)
  have hn : ¬ isAccepted Config.platform .decryptStd (demo 3) := by
    rintro ⟨-, h⟩
    have := (lengthRefusal_eq_none (refusalOf_eq_none h).2).2 (.inr (.inl rfl))
    omega
  exact ⟨⟨_, exec_accepted witness_accepted_encryptStd.2 (demo_ready (by omega)).2.2⟩,
    ⟨_, exec_not_accepted hn⟩, hn, demo_wf 3⟩

/-- `CommandsReadNoStaleRegister`: two states that differ in the stale registers, both running. -/
theorem witness_stale :
    ∃ s s' t t' : State, s'.len = s.len ∧ s'.status = s.status ∧ s'.buf = s.buf ∧ s'.epoch = s.epoch ∧
      s'.v1 ≠ s.v1 ∧ s'.acc ≠ s.acc ∧ exec .hash s = .next t ∧ exec .hash s' = .next t' ∧
      isAccepted Config.platform .hash s :=
  ⟨demo 4, { demo 4 with v1 := 1, acc := 1 }, _, _, rfl, rfl, rfl, rfl,
    fun h => absurd h (show ¬ (1 : Word) = 0 by decide), fun h => absurd h (show ¬ (1 : Word) = 0 by decide),
    exec_accepted (i := .hash) (s := demo 4) (witness_accepted .hash (by decide)).2
      (demo_ready (le_refl 4)).2.2,
    exec_accepted (i := .hash) (s := { demo 4 with v1 := 1, acc := 1 })
      (witness_accepted .hash (by decide)).2 (demo_ready (le_refl 4)).2.2,
    (witness_accepted .hash (by decide)).2⟩

end Sys2Proof.Tests
end

/-! Proofs of the family 00_scope: byte order (R9), and that the micro-step form of a command refines its
big-step form (R12, R231). -/

namespace Sys2Proof.Machine

/-! ### Words and bytes (spec/00_scope.md R9) -/

/-- A lane is a digit in base 256. -/
theorem lane_toNat (w : Word) (k : Nat) : (lane w k).toNat = w.toNat / 2 ^ (8 * k) % 256 := by
  rw [lane, BitVec.extractLsb'_toNat, Nat.shiftRight_eq_div_pow]

/-- `le_word` over natural numbers: its sum never wraps. -/
theorem leWord_toNat (b0 b1 b2 b3 : Byte) :
    (leWord b0 b1 b2 b3).toNat =
      b0.toNat + 256 * b1.toNat + 65536 * b2.toNat + 16777216 * b3.toNat := by
  simp only [leWord, zext32]
  bv_omega

theorem leWord_lanes (w : Word) : leWord (lane w 0) (lane w 1) (lane w 2) (lane w 3) = w := by
  apply BitVec.eq_of_toNat_eq
  have hw := w.isLt
  simp only [leWord_toNat, lane_toNat]
  omega

theorem leBytes_leWord (b0 b1 b2 b3 : Byte) : leBytes (leWord b0 b1 b2 b3) = [b0, b1, b2, b3] := by
  have h0 := b0.isLt
  have h1 := b1.isLt
  have h2 := b2.isLt
  have h3 := b3.isLt
  simp only [leBytes, List.cons.injEq, ← BitVec.toNat_inj, lane_toNat, leWord_toNat, and_true]
  omega

/-! ### Runs of a busy engine -/

/-- `n` micro-steps lead from `s` to `t`, each of them taken by a busy block. -/
inductive BusyRun (cfg : Config) : Nat → State → State → Prop
  | refl (s : State) : BusyRun cfg 0 s s
  | head {n : Nat} {s t u : State} (hb : s.status.busy = true) (hs : engineStep cfg s = .next t)
      (hr : BusyRun cfg n t u) : BusyRun cfg (n + 1) s u

section
variable {cfg : Config} {m n : Nat} {s t u : State}

theorem BusyRun.one (hb : s.status.busy = true) (hs : engineStep cfg s = .next t) :
    BusyRun cfg 1 s t := .head hb hs (.refl t)

theorem BusyRun.trans (h : BusyRun cfg m s t) (h' : BusyRun cfg n t u) :
    BusyRun cfg (m + n) s u := by
  induction h with
  | refl s => rwa [Nat.zero_add]
  | head hb hs _ ih => rw [Nat.add_right_comm]; exact .head hb hs (ih h')

theorem engineRun_succ (n : Nat) (h : engineStep cfg s = .next t) :
    engineRun cfg (n + 1) s = engineRun cfg n t := by
  rw [engineRun, h]

/-- A busy run is a run of the engine. -/
theorem BusyRun.engineRun_eq (h : BusyRun cfg n s t) : engineRun cfg n s = .next t := by
  induction h with
  | refl s => rfl
  | head _ hs _ ih => rw [engineRun_succ _ hs, ih]

/-- Before the end of a busy run the block is busy. -/
theorem BusyRun.busy_before (h : BusyRun cfg n s t) (hm : m < n) :
    ∃ u, engineRun cfg m s = .next u ∧ u.status.busy = true := by
  induction h generalizing m with
  | refl s => exact absurd hm (Nat.not_lt_zero m)
  | @head n s t u hb hs _ ih =>
    cases m with
    | zero => exact ⟨s, rfl, hb⟩
    | succ m => rw [engineRun_succ _ hs]; exact ih (Nat.lt_of_succ_lt_succ hm)

/-- A loop of the engine: `f j` is the state after `j` passes through its body. -/
theorem BusyRun.iterate {f : Nat → State} (hb : ∀ j, (f j).status.busy = true)
    (hs : ∀ j, j < n → engineStep cfg (f j) = .next (f (j + 1))) : BusyRun cfg n (f 0) (f n) := by
  induction n with
  | zero => exact .refl _
  | succ n ih =>
    exact (ih fun j hj => hs j (Nat.lt_succ_of_lt hj)).trans (.one (hb n) (hs n n.lt_succ_self))

end

/-! ### The steps of TRAIL and POST, which only leave their phase behind -/

/-- `PHASE <- p`. -/
def inPhase (p : Phase) (s : State) : State := { s with phase := p }

theorem cipherPass_inPhase (cfg : Config) (k : Word) (p : Phase) (s : State) :
    cipherPass cfg k (inPhase p s) = inPhase p (cipherPass cfg k s) := rfl

theorem finishStep_inPhase (p : Phase) (s : State) :
    finishStep (inPhase p s) = finishStep s := rfl

section
variable {cfg : Config} {s : State}

theorem engineStep_trail_std (hv : s.vl = 0) (hc : s.len.toNat + 4 ≤ cfg.bufCap) :
    engineStep cfg (inPhase .trail s) = .next (inPhase .ksinit (appendTrailer cfg s)) :=
  (if_pos hv).trans (if_pos hc)

theorem engineStep_trail_alt (hv : s.vl ≠ 0) (h4 : 4 ≤ s.len.toNat)
    (hc : s.len.toNat ≤ cfg.bufCap) :
    engineStep cfg (inPhase .trail s) = .next (inPhase .ksinit (overlayTrailer cfg s)) :=
  (if_neg hv).trans (if_pos ⟨h4, by rwa [inBuffer, Nat.zero_add]⟩)

theorem engineStep_post_std (hv : s.vl = 0) (h4 : 4 ≤ s.len.toNat) :
    engineStep cfg (inPhase .post s) = .next (inPhase .finish (dropTrailer s)) :=
  (if_pos hv).trans (if_pos h4)

theorem engineStep_post_alt (hv : s.vl ≠ 0) (h4 : 4 ≤ s.len.toNat)
    (hc : s.len.toNat ≤ cfg.bufCap) :
    engineStep cfg (inPhase .post s) = .next (inPhase .finish (zeroTrailer cfg s)) :=
  (if_neg hv).trans (if_pos ⟨h4, by rwa [inBuffer, Nat.zero_add]⟩)

end

/-! ### Splitting lists of bytes: `MemRead`, `MemWrite`, the cipher -/

theorem memRead_add (cfg : Config) (s : State) (a m n : Nat) :
    memRead cfg s a (m + n) = memRead cfg s a m ++ memRead cfg s (a + m) n := by
  simp [memRead, List.range_add, Nat.add_assoc]

theorem Memory.writeList_append (dflt : Nat → Byte) (m : Memory) (a : Nat) (xs ys : List Byte) :
    Memory.writeList dflt m a (xs ++ ys) =
      Memory.writeList dflt (Memory.writeList dflt m a xs) (a + xs.length) ys := by
  induction xs generalizing m a with
  | nil => rfl
  | cons x xs ih =>
    rw [List.cons_append, Memory.writeList, ih, List.length_cons, Nat.add_assoc, Nat.add_comm 1]
    rfl

theorem memWrite_append (cfg : Config) (s : State) (a : Nat) (xs ys : List Byte) :
    memWrite cfg s a (xs ++ ys) = memWrite cfg (memWrite cfg s a xs) (a + xs.length) ys :=
  congrArg (fun m => { s with buf := m }) (Memory.writeList_append _ _ _ _ _)

theorem cipherFrom_append (k : Word) (i : Nat) (xs ys : List Byte) :
    cipherFrom k i (xs ++ ys) = cipherFrom k i xs ++ cipherFrom k (i + xs.length) ys := by
  induction xs generalizing i with
  | nil => rfl
  | cons x xs ih =>
    rw [List.cons_append, cipherFrom, ih, List.length_cons, Nat.add_assoc, Nat.add_comm 1]
    rfl

theorem cipher_append (k : Word) (xs ys : List Byte) :
    cipher (xs ++ ys) k = cipher xs k ++ cipherFrom k xs.length ys := by
  rw [cipher, cipherFrom_append, Nat.zero_add, cipher]

/-- The mixer of stride `j` is the cipher from keystream byte `4 j` on (R114, R115). -/
theorem mixFrom_eq_cipherFrom (k : Word) (j i : Nat) (bs : List Byte) (h : i + bs.length ≤ 4) :
    mixFrom (ksOut (ksState k j)) i bs = cipherFrom k (4 * j + i) bs := by
  induction bs generalizing i with
  | nil => rfl
  | cons b bs ih =>
    rw [List.length_cons] at h
    have hd : (4 * j + i) / 4 = j := by omega
    have hm : (4 * j + i) % 4 = i := by omega
    rw [mixFrom, cipherFrom, ih (i + 1) (by omega), ksByte, hd, hm, ksWord, Nat.add_assoc]

/-- `MemRead` of bytes behind those that a `MemWrite` from index 0 wrote. -/
theorem memRead_memWrite_of_le {cfg : Config} {s : State}
    (hw : Memory.wf (unwritten cfg s) s.buf) (bs : List Byte) (a n : Nat) (h : bs.length ≤ a) :
    memRead cfg (memWrite cfg s 0 bs) a n = memRead cfg s a n := by
  refine List.map_congr_left fun x _ => ?_
  rw [memWrite_bufByte hw, if_neg (by omega)]

/-! ### The hash phases: HINIT, a HASH step per byte, HASH's exit (R141 to R143) -/

/-- The block after HINIT and `j` byte steps of HASH. -/
def hashAt (cfg : Config) (s : State) (j : Nat) : State :=
  { s with acc := crcFold cfg.table (memRead cfg s 0 j), pos := BitVec.ofNat 32 j, phase := .hash }

section
variable {cfg : Config} {s : State}

theorem engineStep_hinit (hp : s.phase = .hinit) : engineStep cfg s = .next (hashAt cfg s 0) := by
  rw [engineStep, hp]
  rfl

theorem hashByte_hashAt {j : Nat} (hj : j < s.len.toNat) :
    hashByte cfg (hashAt cfg s j) = hashAt cfg s (j + 1) := by
  have hpos : (BitVec.ofNat 32 j).toNat = j := by
    rw [BitVec.toNat_ofNat]; have := s.len.isLt; omega
  have hacc : crcFold cfg.table (memRead cfg s 0 (j + 1)) =
      crcStep cfg.table (crcFold cfg.table (memRead cfg s 0 j)) (bufByte cfg s j) := by
    simp [memRead, crcFold, List.range_succ]
  simp only [hashByte, hashAt, hpos, hacc, BitVec.ofNat_add]
  rfl

theorem engineStep_hashAt (hc : s.len.toNat ≤ cfg.bufCap) {j : Nat} (hj : j < s.len.toNat) :
    engineStep cfg (hashAt cfg s j) = .next (hashAt cfg s (j + 1)) := by
  have hpos : (hashAt cfg s j).pos.toNat = j := by
    simp only [hashAt, BitVec.toNat_ofNat]; have := s.len.isLt; omega
  show hashStep cfg (hashAt cfg s j) = _
  rw [hashStep, hpos, if_pos (show j < (hashAt cfg s j).len.toNat from hj), if_pos (by omega),
    hashByte_hashAt hj]

theorem hashAt_len : hashAt cfg s s.len.toNat =
    { s with acc := crcFold cfg.table (payload cfg s), pos := s.len, phase := .hash } := by
  rw [hashAt, BitVec.ofNat_toNat, BitVec.setWidth_eq]
  rfl

/-- HASH's exit after the last byte: to FINISH for `hash`, to TRAIL for an `encrypt` (R143). -/
theorem engineStep_hashAt_len {p : Phase}
    (ho : s.opl = 2 ∧ p = .finish ∨ s.opl = 3 ∧ p = .trail) :
    engineStep cfg (hashAt cfg s s.len.toNat) = .next (inPhase p (hashPass cfg s)) := by
  rw [hashAt_len]
  refine ((if_neg (Nat.lt_irrefl _)).trans (if_pos rfl)).trans ?_
  rcases ho with ⟨ho, rfl⟩ | ⟨ho, rfl⟩
  · exact if_pos ho
  · exact (if_neg (show ¬ s.opl = 2 by rw [ho]; decide)).trans (if_pos ho)

/-- From HINIT on, the micro-steps make the hash pass (R144). -/
theorem busyRun_hash {p : Phase} (hb : s.status.busy = true) (hp : s.phase = .hinit)
    (hc : s.len.toNat ≤ cfg.bufCap) (ho : s.opl = 2 ∧ p = .finish ∨ s.opl = 3 ∧ p = .trail) :
    BusyRun cfg (s.len.toNat + 2) s (inPhase p (hashPass cfg s)) := by
  have init := BusyRun.one hb (engineStep_hinit (cfg := cfg) hp)
  have bytes := BusyRun.iterate (cfg := cfg) (n := s.len.toNat) (f := hashAt cfg s) (fun _ => hb)
    fun _ hj => engineStep_hashAt hc hj
  have exit := BusyRun.one (s := hashAt cfg s s.len.toNat) hb (engineStep_hashAt_len (cfg := cfg) ho)
  rw [show s.len.toNat + 2 = 1 + s.len.toNat + 1 by omega]
  exact (init.trans bytes).trans exit

end

/-! ### The cipher phases: KSINIT, the strides, STRIDE's exit (R111, R116, R117) -/

/-- The block after KSINIT and `j` strides: the first `4 j` bytes, as many as there are, are done. -/
def strideAt (cfg : Config) (k : Word) (s : State) (j : Nat) : State :=
  { setCipher (ksState k j)
      (memWrite cfg s 0 (cipher (memRead cfg s 0 (min (4 * j) s.len.toNat)) k)) with
    seed := k, pos := BitVec.ofNat 32 (4 * j), rem := BitVec.ofNat 32 (s.len.toNat - 4 * j)
    phase := .stride }

section
variable {cfg : Config} {k : Word} {s : State} {j : Nat}

theorem strideAt_cipherState : cipherState (strideAt cfg k s j) = ksState k j := rfl

theorem strideAt_rem_toNat : (strideAt cfg k s j).rem.toNat = s.len.toNat - 4 * j := by
  rw [strideAt, BitVec.toNat_ofNat]
  have := s.len.isLt
  omega

theorem strideAt_pos_toNat (hj : 4 * j < s.len.toNat) :
    (strideAt cfg k s j).pos.toNat = 4 * j := by
  rw [strideAt, BitVec.toNat_ofNat]
  have := s.len.isLt
  omega

theorem engineStep_ksinit (hp : s.phase = .ksinit) :
    engineStep cfg s = .next (strideAt cfg (seedOf s.vl) s 0) := by
  have h0 : strideAt cfg (seedOf s.vl) s 0 = ksinitStep s := by
    simp [strideAt, ksinitStep, memRead, cipher, cipherFrom, memWrite, Memory.writeList, ksState,
      setCipher]
  rw [engineStep, hp, h0]

theorem lanes_strideAt : lanes (strideAt cfg k s j) = min 4 (s.len.toNat - 4 * j) := by
  rw [lanes, strideAt_rem_toNat]

/-- What stride `j` writes: the next bytes of the buffer, enciphered from keystream byte `4 j` on. -/
theorem mix_strideAt (hw : Memory.wf (unwritten cfg s) s.buf) (hj : 4 * j < s.len.toNat) :
    mixFrom (ksOut (ksState k j)) 0
        (memRead cfg (strideAt cfg k s j) (4 * j) (lanes (strideAt cfg k s j))) =
      cipherFrom k (4 * j) (memRead cfg s (4 * j) (lanes (strideAt cfg k s j))) := by
  have hread : memRead cfg (strideAt cfg k s j) (4 * j) (lanes (strideAt cfg k s j)) =
      memRead cfg s (4 * j) (lanes (strideAt cfg k s j)) :=
    (memRead_congr rfl rfl _ _).trans
      (memRead_memWrite_of_le hw _ _ _ (by rw [cipher_length, memRead_length]; omega))
  rw [hread, mixFrom_eq_cipherFrom _ _ _ _ (by rw [memRead_length, lanes_strideAt]; omega),
    Nat.add_zero]

/-- The buffer after stride `j`. -/
theorem strideAt_succ_memWrite (hj : 4 * j < s.len.toNat) :
    memWrite cfg s 0 (cipher (memRead cfg s 0 (min (4 * (j + 1)) s.len.toNat)) k) =
      memWrite cfg (memWrite cfg s 0 (cipher (memRead cfg s 0 (min (4 * j) s.len.toNat)) k)) (4 * j)
        (cipherFrom k (4 * j) (memRead cfg s (4 * j) (lanes (strideAt cfg k s j)))) := by
  have hn : min (4 * (j + 1)) s.len.toNat = 4 * j + lanes (strideAt cfg k s j) := by
    rw [lanes_strideAt]; omega
  rw [hn, min_eq_left hj.le, memRead_add, cipher_append, memWrite_append, cipher_length,
    memRead_length, Nat.zero_add]

theorem strideBody_strideAt (hw : Memory.wf (unwritten cfg s) s.buf) (hj : 4 * j < s.len.toNat) :
    strideBody cfg (strideAt cfg k s j) = strideAt cfg k s (j + 1) := by
  have hrem : (strideAt cfg k s j).rem - BitVec.ofNat 32 (lanes (strideAt cfg k s j)) =
      BitVec.ofNat 32 (s.len.toNat - 4 * (j + 1)) := by
    apply BitVec.eq_of_toNat_eq
    have := s.len.isLt
    rw [BitVec.toNat_sub, strideAt_rem_toNat, lanes_strideAt, BitVec.toNat_ofNat, BitVec.toNat_ofNat]
    omega
  have hpos : (strideAt cfg k s j).pos + 4 = BitVec.ofNat 32 (4 * (j + 1)) := by
    rw [Nat.mul_succ, BitVec.ofNat_add]
    rfl
  rw [strideBody, strideAt_pos_toNat hj, strideAt_cipherState, mix_strideAt hw hj, hrem, hpos,
    strideAt.eq_def cfg k s (j + 1), strideAt_succ_memWrite hj]
  rfl

theorem engineStep_strideAt (hw : Memory.wf (unwritten cfg s) s.buf)
    (hc : s.len.toNat ≤ cfg.bufCap) (hj : j < strides s.len.toNat) :
    engineStep cfg (strideAt cfg k s j) = .next (strideAt cfg k s (j + 1)) := by
  have hlt : 4 * j < s.len.toNat := by rw [strides] at hj; omega
  have hrem : (strideAt cfg k s j).rem ≠ 0 := by
    intro h
    have h0 : (strideAt cfg k s j).rem.toNat = 0 := by rw [h]; rfl
    rw [strideAt_rem_toNat] at h0
    omega
  show strideStep cfg (strideAt cfg k s j) = _
  rw [strideStep, if_neg hrem, if_pos (by rw [strideAt_pos_toNat hlt, lanes_strideAt]; omega),
    strideBody_strideAt hw hlt]

/-- After the last stride the block holds what the big step of the pass leaves (R118). -/
theorem strideAt_strides : strideAt cfg k s (strides s.len.toNat) =
    inPhase .stride (cipherPass cfg k s) := by
  have hle : s.len.toNat ≤ 4 * strides s.len.toNat := by rw [strides]; omega
  rw [strideAt, min_eq_right hle, Nat.sub_eq_zero_of_le hle]
  rfl

theorem engineStep_strideExit :
    engineStep cfg (inPhase .stride (cipherPass cfg k s)) =
      .next (inPhase (if s.opl = 4 then .post else .finish) (cipherPass cfg k s)) := rfl

/-- From KSINIT on, the micro-steps make the cipher pass (R118). -/
theorem busyRun_cipher (hb : s.status.busy = true) (hp : s.phase = .ksinit)
    (hc : s.len.toNat ≤ cfg.bufCap) (hw : Memory.wf (unwritten cfg s) s.buf) :
    BusyRun cfg (strides s.len.toNat + 2) s
      (inPhase (if s.opl = 4 then .post else .finish) (cipherPass cfg (seedOf s.vl) s)) := by
  have init := BusyRun.one hb (engineStep_ksinit (cfg := cfg) hp)
  have body := BusyRun.iterate (n := strides s.len.toNat) (f := strideAt cfg (seedOf s.vl) s)
    (fun _ => hb) fun _ hj => engineStep_strideAt hw hc hj
  rw [strideAt_strides] at body
  have exit := BusyRun.one (s := inPhase .stride (cipherPass cfg (seedOf s.vl) s)) hb
    (engineStep_strideExit (cfg := cfg))
  rw [show strides s.len.toNat + 2 = 1 + strides s.len.toNat + 1 by omega]
  exact (init.trans body).trans exit

end

/-! ### Every command from acceptance to idle (R231) -/

section
variable {cfg : Config} {s : State}

theorem busyRun_finish (hb : s.status.busy = true) :
    BusyRun cfg 1 (inPhase .finish s) (finishStep s) := .one hb rfl

/-- The cipher pass as the end of a command that is no `decrypt`. -/
theorem busyRun_cipher_finish (hb : s.status.busy = true) (hp : s.phase = .ksinit)
    (hc : s.len.toNat ≤ cfg.bufCap) (hw : Memory.wf (unwritten cfg s) s.buf) (ho : s.opl ≠ 4) :
    BusyRun cfg (strides s.len.toNat + 3) s (finishStep (cipherPass cfg (seedOf s.vl) s)) := by
  have pass := busyRun_cipher hb hp hc hw
  rw [if_neg ho] at pass
  exact pass.trans (busyRun_finish hb)

/-- A `decrypt`: the cipher pass, then the POST step that leads to `t`. -/
theorem busyRun_decrypt {t : State} (hb : s.status.busy = true) (hp : s.phase = .ksinit)
    (hc : s.len.toNat ≤ cfg.bufCap) (hw : Memory.wf (unwritten cfg s) s.buf) (ho : s.opl = 4)
    (ht : t.status.busy = true)
    (hpost : engineStep cfg (inPhase .post (cipherPass cfg (seedOf s.vl) s)) =
      .next (inPhase .finish t)) :
    BusyRun cfg (strides s.len.toNat + 4) s (finishStep t) := by
  have pass := busyRun_cipher hb hp hc hw
  rw [if_pos ho] at pass
  exact (pass.trans (.one hb hpost)).trans (busyRun_finish ht)

/-- An `encrypt`: the hash pass, the TRAIL step that leads to `t`, the cipher pass over `t`. -/
theorem busyRun_encrypt {t : State} (hb : s.status.busy = true) (hp : s.phase = .hinit)
    (hc : s.len.toNat ≤ cfg.bufCap) (ho : s.opl = 3)
    (htrail : engineStep cfg (inPhase .trail (hashPass cfg s)) = .next (inPhase .ksinit t))
    (ht : t.status.busy = true) (hto : t.opl = 3) (htc : t.len.toNat ≤ cfg.bufCap)
    (htw : Memory.wf (unwritten cfg t) t.buf) :
    BusyRun cfg (s.len.toNat + strides t.len.toNat + 6) s
      (finishStep (cipherPass cfg (seedOf t.vl) t)) := by
  have pass := busyRun_hash hb hp hc (.inr ⟨ho, rfl⟩)
  have rest := busyRun_cipher_finish (s := inPhase .ksinit t) ht rfl htc htw
    (show t.opl ≠ 4 by rw [hto]; decide)
  rw [cipherPass_inPhase, finishStep_inPhase] at rest
  rw [show s.len.toNat + strides t.len.toNat + 6 =
    s.len.toNat + 2 + 1 + (strides t.len.toNat + 3) by omega]
  exact (pass.trans (.one hb htrail)).trans rest

/-- From acceptance on, the micro-steps of R231 make the command's big step, busy all the way. -/
theorem busyRun_command {i : Instr} (hcap : cfg.Valid) (ha : isAccepted cfg i s)
    (hl : s.len.toNat ≤ cfg.bufCap) (hw : Memory.wf (unwritten cfg s) s.buf) :
    BusyRun cfg (microSteps i s.len.toNat) (accept i s)
      (finishStep (effectOf cfg i (accept i s))) := by
  obtain ⟨hroom, h4⟩ := lengthRefusal_eq_none (refusalOf_eq_none ha.2).2
  have hla : (accept i s).len.toNat ≤ cfg.bufCap := hl
  have hwa : Memory.wf (unwritten cfg (accept i s)) (accept i s).buf := hw
  have hop : (1 : BitVec 4) ≠ 4 := by decide
  have hvl : (1 : BitVec 1) ≠ 0 := by decide
  cases i with
  | hash => exact (busyRun_hash rfl rfl hla (.inl ⟨rfl, rfl⟩)).trans (busyRun_finish rfl)
  | cipherStd => exact busyRun_cipher_finish rfl rfl hla hwa hop
  | cipherAlt => exact busyRun_cipher_finish rfl rfl hla hwa hop
  | decryptStd =>
    exact busyRun_decrypt rfl rfl hla hwa rfl rfl (engineStep_post_std rfl (h4 (by simp)))
  | decryptAlt =>
    exact busyRun_decrypt rfl rfl hla hwa rfl rfl (engineStep_post_alt hvl (h4 (by simp)) hl)
  | encryptAlt =>
    exact busyRun_encrypt rfl rfl hla rfl (engineStep_trail_alt hvl (h4 (by simp)) hla) rfl rfl
      hla (memWrite_wf hwa _ _)
  | encryptStd =>
    have hroom := hroom rfl
    have hlen : (s.len + 4).toNat = s.len.toNat + 4 := by
      have := hcap.2
      bv_omega
    have hstr : s.len.toNat + strides (s.len + 4).toNat + 6 =
        microSteps .encryptStd s.len.toNat := by
      rw [hlen, microSteps, strides, strides]; omega
    rw [← hstr]
    exact busyRun_encrypt rfl rfl hla rfl (engineStep_trail_std rfl hroom) rfl rfl
      (show (s.len + 4).toNat ≤ _ by omega) (memWrite_wf hwa _ _)

end

end Sys2Proof.Machine

section

open Sys2Proof Sys2Proof.Machine

/-- Settles O17, over natural numbers: the lanes are the digits of the word in base 256. -/
theorem littleEndianBytesAndWordAreInverse : Obligations.LittleEndianBytesAndWordAreInverse :=
  ⟨leWord_lanes, leBytes_leWord⟩

/-- Settles O52: the busy runs of a command's phases, put together by `busyRun_command`, end in the
state that `exec` answers. -/
theorem microStepsRefineTheBigStep : Obligations.MicroStepsRefineTheBigStep := by
  intro s i hinv ha
  have run := busyRun_command platform_valid ha hinv.lenBound hinv.bufWf
  refine ⟨?_, fun n hn => run.busy_before hn⟩
  rw [run.engineRun_eq, exec_accepted ha hinv.lenBound]

end

/-! Proofs of the family 10_state: what a step can do, the invariant, `CRC`, stale registers, and the
register port. -/

namespace Sys2Proof.Machine

/-! ### What a step can do -/

/-- Everything a step can do when it answers a next state, `q` the host's events after it: an engine
micro-step, a port operation, nothing but the end of a `wait`, a command word as one event, a reset. -/
theorem step_cases {s t : State} (h : step s = .next t) :
    ∃ q, engineStep Config.platform { s with inputs := q } = .next t ∨
      (∃ o, t = hostOp Config.platform o { s with inputs := q }) ∨
      t = { s with inputs := q } ∨
      (∃ w, s.inputs = .run w :: q ∧ runWord exec w { s with inputs := q } = .next t) ∨
      (∃ v, s.inputs = .reset v :: q ∧ t = resetInput v { s with inputs := q }) := by
  have inj : ∀ {a b : State}, (Host.Outcome.next a : Host.Outcome State Fault Refusal) = .next b →
      b = a := fun e => (Host.Outcome.next.inj e).symm
  rw [step, stepWith] at h
  split at h
  · exact ⟨s.inputs, .inl h⟩
  · next e q hq =>
    cases e with
    | op o => exact ⟨q, .inr (.inl ⟨o, inj h⟩)⟩
    | run w => exact ⟨q, .inr (.inr (.inr (.inl ⟨w, hq, h⟩)))⟩
    | pass => exact ⟨q, .inl h⟩
    | wait =>
      rw [hostEvent] at h
      split at h
      · exact ⟨.wait :: q, .inl h⟩
      · exact ⟨q, .inr (.inr (.inl (inj h)))⟩
    | store => exact ⟨_, .inr (.inl ⟨.readReg 2, inj h⟩)⟩
    | reset v => exact ⟨q, .inr (.inr (.inr (.inr ⟨v, hq, inj h⟩)))⟩

/-- Everything a command word as one event can do when it answers a next state. -/
theorem runWord_cases {w : Word} {s t : State} (h : runWord exec w s = .next t) :
    (s.status.busy = true ∧ t = dropWhileBusy s) ∨
    (s.status.busy = false ∧ ∃ c, t = refuseCommand c s) ∨
    (∃ i, decode w = .ok i ∧ isAccepted Config.platform i s ∧ s.len.toNat ≤ Config.platform.bufCap ∧
      t = finishStep (effectOf Config.platform i (accept i s))) := by
  rw [runWord] at h
  split at h
  · next i hd =>
    rcases exec_cases h with hdrop | ⟨hb, c, -, ht⟩ | hacc
    · exact .inl hdrop
    · exact .inr (.inl ⟨hb, c, ht⟩)
    · exact .inr (.inr ⟨i, hd, hacc⟩)
  · have ht := (Host.Outcome.next.inj h).symm
    rw [issueIllegal] at ht
    split at ht
    · next hb => exact .inl ⟨hb, ht⟩
    · next hb => exact .inr (.inl ⟨by simpa using hb, _, ht⟩)

/-! ### The invariant (spec/10_state.md R27 to R29) -/

/-- The part of the invariant that holds of `LEN`, `POS`, `SEED` and `BUF` in every phase. -/
def DataInv (cfg : Config) (s : State) : Prop :=
  s.len.toNat ≤ cfg.bufCap ∧ s.pos.toNat ≤ cfg.bufCap + 3 ∧
    (s.seed = 0 ∨ s.seed = seedStd ∨ s.seed = seedAlt) ∧
    Memory.wf (unwritten cfg s) s.buf ∧ ∀ c ∈ s.buf, c.1 < cfg.bufCap

section
variable {cfg : Config} {s t : State}

theorem Inv.data (h : Inv cfg s) : DataInv cfg s :=
  ⟨h.lenBound, h.posBound, h.seedLegal, h.bufWf, h.bufBound⟩

/-- Bytes within storage keep the data's part of the invariant. -/
theorem dataInv_memWrite (h : DataInv cfg s) {a : Nat} {bs : List Byte}
    (ha : a + bs.length ≤ cfg.bufCap) : DataInv cfg (memWrite cfg s a bs) := by
  obtain ⟨hlen, hpos, hseed, hwf, hbound⟩ := h
  exact ⟨hlen, hpos, hseed, memWrite_wf hwf a bs, Memory.bound_writeList hbound ha⟩

theorem DataInv.withLen (h : DataInv cfg s) {n : Word} (hn : n.toNat ≤ cfg.bufCap) :
    DataInv cfg { s with len := n } := ⟨hn, h.2⟩

theorem DataInv.withPos (h : DataInv cfg s) {n : Word} (hn : n.toNat ≤ cfg.bufCap + 3) :
    DataInv cfg { s with pos := n } := ⟨h.1, hn, h.2.2⟩

/-- On an idle block the data's part is the whole invariant. -/
theorem DataInv.inv_of_idle (h : DataInv cfg s) (hb : s.status.busy = false)
    (hp : s.phase = .idle) : Inv cfg s := by
  obtain ⟨hlen, hpos, hseed, hwf, hbound⟩ := h
  exact
    { lenBound := hlen
      posBound := hpos
      busyClean := fun hb' => absurd (hb.symm.trans hb') Bool.false_ne_true
      idleIff := ⟨fun _ => hb, fun _ => hp⟩
      fatalIdle := fun _ => hb
      seedLegal := hseed
      bufWf := hwf
      bufBound := hbound
      phaseInv := by rw [PhaseInv, hp]; trivial }

/-- On a busy block what is left to show is the phase's own condition. -/
theorem DataInv.inv_of_busy (h : DataInv cfg s) (hb : s.status.busy = true)
    (hd : s.status.done = false) (he : s.status.err = .noRefusal) (hf : s.status.fatal = false)
    (hp : s.phase ≠ .idle) (hphase : PhaseInv cfg s) : Inv cfg s := by
  obtain ⟨hlen, hpos, hseed, hwf, hbound⟩ := h
  exact
    { lenBound := hlen
      posBound := hpos
      busyClean := fun _ => ⟨hd, he⟩
      idleIff := ⟨fun h => absurd h hp, fun h => absurd (h.symm.trans hb) Bool.false_ne_true⟩
      fatalIdle := fun h => absurd (hf.symm.trans h) Bool.false_ne_true
      seedLegal := hseed
      bufWf := hwf
      bufBound := hbound
      phaseInv := hphase }

/-- The host's side is no part of the invariant. -/
theorem Inv.withHost (h : Inv cfg s) (q : List HostEvent) (r : List Reply) (d : Nat) :
    Inv cfg { s with inputs := q, replies := r, draws := d } :=
  ⟨h.lenBound, h.posBound, h.busyClean, h.idleIff, h.fatalIdle, h.seedLegal, h.bufWf, h.bufBound,
    h.phaseInv⟩

theorem inv_dropWhileBusy (h : Inv cfg s) : Inv cfg (dropWhileBusy s) :=
  ⟨h.lenBound, h.posBound, h.busyClean, h.idleIff, h.fatalIdle, h.seedLegal, h.bufWf, h.bufBound,
    h.phaseInv⟩

theorem inv_refuse (h : Inv cfg s) (hb : s.status.busy = false) (c : RefusalCode) :
    Inv cfg (refuse c s) := DataInv.inv_of_idle h.data hb (h.idleIff.mpr hb)

theorem inv_refuseCommand (h : Inv cfg s) (hb : s.status.busy = false) (c : RefusalCode) :
    Inv cfg (refuseCommand c s) := DataInv.inv_of_idle h.data hb (h.idleIff.mpr hb)

theorem firstPhase_ne_idle (i : Instr) : firstPhase i ≠ .idle := by
  cases i <;> decide

/-- Acceptance gives the first phase what it relies on (R96). -/
theorem inv_accept {i : Instr} (h : Inv cfg s) (ha : isAccepted cfg i s) :
    Inv cfg (accept i s) := by
  obtain ⟨hf, hl⟩ := refusalOf_eq_none ha.2
  obtain ⟨hroom, h4⟩ := lengthRefusal_eq_none hl
  refine DataInv.inv_of_busy h.data rfl rfl rfl hf (firstPhase_ne_idle i) ?_
  have h14 : (1 : BitVec 4) ≠ 4 := by decide
  have h23 : (2 : BitVec 4) ≠ 3 := by decide
  cases i with
  | cipherStd => exact ⟨.inl rfl, fun h => absurd h h14⟩
  | cipherAlt => exact ⟨.inl rfl, fun h => absurd h h14⟩
  | hash => exact ⟨.inl rfl, fun h => absurd h h23⟩
  | encryptStd => exact ⟨.inr rfl, fun _ => hroom rfl⟩
  | encryptAlt => exact ⟨.inr rfl, fun _ => h4 (.inl rfl)⟩
  | decryptStd => exact ⟨.inr (.inr rfl), fun _ => h4 (.inr (.inl rfl))⟩
  | decryptAlt => exact ⟨.inr (.inr rfl), fun _ => h4 (.inr (.inr rfl))⟩

/-- A micro-step of a running command that does not end it: what is left to show is the data's part and
the next phase's own condition. -/
theorem Inv.of_microStep (h : Inv cfg s) (hs : s.phase ≠ .idle) (hstatus : t.status = s.status)
    (hp : t.phase ≠ .idle) (hd : DataInv cfg t) (hphase : PhaseInv cfg t) : Inv cfg t := by
  have hb : s.status.busy = true := by
    cases hb : s.status.busy with
    | true => rfl
    | false => exact absurd (h.idleIff.mpr hb) hs
  have hf : s.status.fatal = false := by
    cases hf : s.status.fatal with
    | false => rfl
    | true => exact absurd ((h.fatalIdle hf).symm.trans hb) Bool.false_ne_true
  obtain ⟨hdone, herr⟩ := h.busyClean hb
  rw [← hstatus] at hb hf hdone herr
  exact hd.inv_of_busy hb hdone herr hf hp hphase

/-- Four bytes more fit in a word: `LEN + 4` and `POS + 4` do not wrap below `BUFCAP` (R4). -/
theorem toNat_add_four {n : Word} (hcap : cfg.Valid)
    (hn : n.toNat < cfg.bufCap ∨ n.toNat + 4 ≤ cfg.bufCap) : (n + 4).toNat = n.toNat + 4 := by
  have := hcap.2
  bv_omega

/-- HASH's byte step moves on within the buffer (R142). -/
theorem inv_hashByte (h : Inv cfg s) (hp : s.phase = .hash) (hlt : s.pos.toNat < s.len.toNat) :
    Inv cfg (hashByte cfg s) := by
  have hpos : (s.pos + 1).toNat = s.pos.toNat + 1 := by bv_omega
  have hlen := h.lenBound
  have hphase := h.phaseInv
  rw [PhaseInv, hp] at hphase
  obtain ⟨hop, hfit, -⟩ := hphase
  refine h.of_microStep (by simp [hp]) rfl Phase.noConfusion
    (h.data.withPos (n := s.pos + 1) (by omega)) ⟨hop, hfit, ?_⟩
  show (s.pos + 1).toNat ≤ s.len.toNat
  omega

/-- HASH's exit leads to TRAIL for an `encrypt` only (R143). -/
theorem inv_hashExit (h : Inv cfg s) (hp : s.phase = .hash)
    (ht : s.opl = 2 ∧ t = { s with crc := ~~~ s.acc, phase := .finish } ∨
      s.opl = 3 ∧ t = { s with crc := ~~~ s.acc, phase := .trail }) : Inv cfg t := by
  have hphase := h.phaseInv
  rw [PhaseInv, hp] at hphase
  rcases ht with ⟨-, rfl⟩ | ⟨hop, rfl⟩
  · exact h.of_microStep (by simp [hp]) rfl Phase.noConfusion h.data trivial
  · exact h.of_microStep (by simp [hp]) rfl Phase.noConfusion h.data ⟨hop, hphase.2.1⟩

/-- TRAIL keeps the invariant, whichever way the trailer went into storage (R161, R164). -/
theorem inv_trail (h : Inv cfg s) (hp : s.phase = .trail) {u : State} (hu : DataInv cfg u)
    (hop : u.opl = s.opl) (hstatus : u.status = s.status) : Inv cfg { u with phase := .ksinit } := by
  have hphase := h.phaseInv
  rw [PhaseInv, hp] at hphase
  have h34 : (3 : BitVec 4) ≠ 4 := by decide
  have ho : u.opl = 3 := hop.trans hphase.1
  exact h.of_microStep (by simp [hp]) hstatus Phase.noConfusion hu
    ⟨.inr (.inl ho), fun h => absurd (ho.symm.trans h) h34⟩

/-- KSINIT puts the pass at its start (R111). -/
theorem inv_ksinitStep (h : Inv cfg s) (hp : s.phase = .ksinit) : Inv cfg (ksinitStep s) := by
  have hphase := h.phaseInv
  rw [PhaseInv, hp] at hphase
  have hseed : seedOf s.vl = 0 ∨ seedOf s.vl = seedStd ∨ seedOf s.vl = seedAlt := by
    rw [seedOf]; split
    · exact .inr (.inl rfl)
    · exact .inr (.inr rfl)
  refine h.of_microStep (by simp [hp]) rfl Phase.noConfusion
    ⟨h.lenBound, Nat.zero_le _, hseed, h.bufWf, h.bufBound⟩ ⟨hphase, rfl, ?_⟩
  show if s.len = 0 then (0 : Word).toNat = 4 * strides s.len.toNat
    else (0 : Word).toNat + s.len.toNat = s.len.toNat
  split
  · next hl => rw [hl]; rfl
  · exact Nat.zero_add _

/-- STRIDE's exit leads to POST for a `decrypt` only (R117). -/
theorem inv_strideExit (h : Inv cfg s) (hp : s.phase = .stride) : Inv cfg (strideExit s) := by
  have hphase := h.phaseInv
  rw [PhaseInv, hp] at hphase
  obtain ⟨⟨-, h4⟩, -⟩ := hphase
  rw [strideExit]
  split
  · next hop => exact h.of_microStep (by simp [hp]) rfl Phase.noConfusion h.data ⟨hop, h4 hop⟩
  · exact h.of_microStep (by simp [hp]) rfl Phase.noConfusion h.data trivial

/-- A stride works within the buffer and moves the pass on by its lanes, `POS` past the end only with
the last of them (R29, R116). -/
theorem passPosition_strideBody (hcap : cfg.Valid) (hl : s.len.toNat ≤ cfg.bufCap) (hr : s.rem ≠ 0)
    (hpass : PassPosition s) :
    s.pos.toNat < s.len.toNat ∧ s.pos.toNat + lanes s ≤ s.len.toNat ∧
      PassPosition (strideBody cfg s) := by
  obtain ⟨hmod, hsum⟩ := hpass
  rw [if_neg hr] at hsum
  have hleft : s.rem.toNat ≠ 0 := fun h => hr (BitVec.eq_of_toNat_eq h)
  have hpos : (s.pos + 4).toNat = s.pos.toNat + 4 := toNat_add_four hcap (.inl (by omega))
  have hlanes : lanes s = min 4 s.rem.toNat := rfl
  have hrem : (s.rem - BitVec.ofNat 32 (lanes s)).toNat = s.rem.toNat - lanes s := by
    bv_omega
  refine ⟨by omega, by omega, ?_, ?_⟩
  · show (s.pos + 4).toNat % 4 = 0
    omega
  · show if s.rem - BitVec.ofNat 32 (lanes s) = 0 then (s.pos + 4).toNat = 4 * strides s.len.toNat
      else (s.pos + 4).toNat + (s.rem - BitVec.ofNat 32 (lanes s)).toNat = s.len.toNat
    split
    · next h0 =>
      have hlast : s.rem.toNat - lanes s = 0 := by rw [← hrem, h0]; rfl
      rw [hpos, strides]
      omega
    · next h0 =>
      have hmore : s.rem.toNat - lanes s ≠ 0 := fun e => h0 (BitVec.eq_of_toNat_eq (hrem.trans e))
      rw [hpos, hrem]
      omega

theorem inv_strideBody (hcap : cfg.Valid) (h : Inv cfg s) (hp : s.phase = .stride) (hr : s.rem ≠ 0) :
    Inv cfg (strideBody cfg s) := by
  have hphase := h.phaseInv
  rw [PhaseInv, hp] at hphase
  obtain ⟨hcmd, hpass⟩ := hphase
  have hlen := h.lenBound
  obtain ⟨hlt, hin, hpass'⟩ := passPosition_strideBody hcap hlen hr hpass
  have hpos := toNat_add_four (n := s.pos) hcap (.inl (by omega))
  have hwrite : DataInv cfg (memWrite cfg s s.pos.toNat
      (mixFrom (ksOut (cipherState s)) 0 (memRead cfg s s.pos.toNat (lanes s)))) :=
    dataInv_memWrite h.data (by rw [mixFrom_length, memRead_length]; omega)
  exact h.of_microStep (by simp [hp]) rfl Phase.noConfusion
    (hwrite.withPos (n := s.pos + 4) (by omega)) ⟨hcmd, hpass'⟩

/-- Every engine micro-step keeps the invariant. -/
theorem inv_engineStep (hcap : cfg.Valid) (h : Inv cfg s) (hs : engineStep cfg s = .next t) :
    Inv cfg t := by
  have hphase := h.phaseInv
  have hlen := h.lenBound
  rcases engineStep_cases hs with ⟨-, rfl⟩ | ⟨hp, rfl⟩ | ⟨hp, hlt, rfl⟩ | ⟨hp, -, ht⟩ |
    ⟨hp, -, hc, rfl⟩ | ⟨hp, -, h4, hc, rfl⟩ | ⟨hp, rfl⟩ | ⟨hp, -, rfl⟩ | ⟨hp, hr, -, rfl⟩ |
    ⟨hp, -, h4, rfl⟩ | ⟨hp, -, h4, hc, rfl⟩ | ⟨-, rfl⟩
  · exact h
  · rw [PhaseInv, hp] at hphase
    obtain ⟨hop, hfit⟩ := hphase
    exact h.of_microStep (by simp [hp]) rfl Phase.noConfusion
      (h.data.withPos (n := 0) (Nat.zero_le _)) ⟨hop, hfit, Nat.zero_le _⟩
  · exact inv_hashByte h hp hlt
  · exact inv_hashExit h hp ht
  · have hwrite := dataInv_memWrite h.data (a := s.len.toNat) (bs := leBytes s.crc) hc
    exact inv_trail h hp (hwrite.withLen (n := s.len + 4) (by
      rw [toNat_add_four hcap (.inr hc)]; exact hc)) rfl rfl
  · exact inv_trail h hp (dataInv_memWrite h.data (by rw [leBytes_length]; omega)) rfl rfl
  · exact inv_ksinitStep h hp
  · exact inv_strideExit h hp
  · exact inv_strideBody hcap h hp hr
  · exact h.of_microStep (by simp [hp]) rfl Phase.noConfusion
      (h.data.withLen (n := s.len - 4) (by bv_omega)) trivial
  · exact h.of_microStep (by simp [hp]) rfl Phase.noConfusion
      (dataInv_memWrite (bs := [0, 0, 0, 0]) h.data (by simp; omega)) trivial
  · exact DataInv.inv_of_idle h.data rfl rfl

theorem BusyRun.inv {n : Nat} (hrun : BusyRun cfg n s t) (hcap : cfg.Valid) (h : Inv cfg s) :
    Inv cfg t := by
  induction hrun with
  | refl s => exact h
  | head _ hs _ ih => exact ih (inv_engineStep hcap h hs)

/-- A port operation keeps the invariant. -/
theorem inv_hostOp (h : Inv cfg s) (o : HostOp) : Inv cfg (hostOp cfg o s) := by
  rcases hostOp_cases cfg o s with ⟨r, n, ht⟩ | ⟨ht, -⟩ | ⟨hb, hidle⟩
  · exact ht ▸ h.withHost s.inputs _ n
  · exact ht ▸ inv_dropWhileBusy h
  · have hp := h.idleIff.mpr hb
    rcases hidle with ht | ⟨n, hn, ht⟩ | ⟨a, b, ha, ht⟩ | ⟨w, ht⟩
    · exact ht ▸ inv_refuse h hb _
    · exact ht ▸ DataInv.inv_of_idle (h.data.withLen hn) hb hp
    · exact ht ▸ DataInv.inv_of_idle (dataInv_memWrite h.data (bs := [b]) ha) hb hp
    · rcases issue_cases cfg w s with ⟨-, hw⟩ | ⟨-, c, hw⟩ | ⟨i, -, ha, hw⟩
      · exact (ht.trans hw) ▸ inv_dropWhileBusy h
      · exact (ht.trans hw) ▸ inv_refuseCommand h hb c
      · exact (ht.trans hw) ▸ inv_accept h ha

/-- A reset makes the invariant hold, whatever was before. -/
theorem inv_afterReset (v : Bool) (e : Nat) (q : List HostEvent) (r : List Reply) (d : Nat) :
    Inv cfg (State.afterReset v e q r d) :=
  DataInv.inv_of_idle ⟨Nat.zero_le _, Nat.zero_le _, .inl rfl, Memory.wf_nil, fun _ h => nomatch h⟩
    rfl rfl

end

/-- A command word as one event keeps the invariant: its big step is a run of micro-steps (R12). -/
theorem inv_runWord {w : Word} {s t : State} (h : Inv Config.platform s)
    (ht : runWord exec w s = .next t) : Inv Config.platform t := by
  rcases runWord_cases ht with ⟨-, rfl⟩ | ⟨hb, c, rfl⟩ | ⟨i, -, ha, hl, rfl⟩
  · exact inv_dropWhileBusy h
  · exact inv_refuseCommand h hb c
  · exact (busyRun_command platform_valid ha hl h.bufWf).inv platform_valid (inv_accept h ha)

/-! ### `STATUS` as a word (spec/10_state.md R27) -/

/-- The four flags as one field, `BUSY` lowest. -/
def Status.flags (f : Status) : BitVec 4 :=
  bitOf f.wrbusy ++ (bitOf f.fatal ++ (bitOf f.done ++ bitOf f.busy))

theorem Status.flags_bits (f : Status) :
    f.flags.getLsbD 0 = f.busy ∧ f.flags.getLsbD 1 = f.done ∧ f.flags.getLsbD 2 = f.fatal ∧
      f.flags.getLsbD 3 = f.wrbusy := by
  rw [Status.flags]
  generalize f.busy = busy, f.done = done, f.fatal = fatal, f.wrbusy = wrbusy
  revert busy done fatal wrbusy
  decide

/-- Below the code stand the flags. -/
theorem Status.toWord_getLsbD (f : Status) {k : Nat} (hk : k < 4) :
    f.toWord.getLsbD k = f.flags.getLsbD k := by
  rw [Status.toWord, BitVec.getLsbD_append, if_pos (by omega), BitVec.getLsbD_append, if_pos hk]
  rfl

/-! ### What writes `CRC` (spec/10_state.md R24) -/

theorem wordOfFields_fieldsOfWord (w : Word) : wordOfFields (fieldsOfWord w) = w := by
  simp only [wordOfFields, fieldsOfWord]
  rw [BitVec.extractLsb'_append_extractLsb'_eq_extractLsb' (by rfl),
    BitVec.extractLsb'_append_extractLsb'_eq_extractLsb' (by rfl)]
  exact BitVec.extractLsb'_eq_self

/-- The opcode map of R92 names a command for its own fields only. -/
theorem fields_of_decodeFields {f : CmdFields} {i : Instr} (h : decodeFields f = .ok i) :
    f = i.fields := by
  obtain ⟨rsv, v, op⟩ := f
  have hrsv : rsv = 0 := by
    by_contra hr
    rw [decodeFields, if_pos hr] at h
    exact nomatch h
  subst hrsv
  have rows : ∀ (v : BitVec 1) (op : BitVec 4), ∀ i ∈ allInstrs,
      decodeFields ⟨0, v, op⟩ = .ok i → ⟨0, v, op⟩ = i.fields := by decide
  exact rows v op i (by cases i <;> decide) h

theorem encode_of_decode {w : Word} {i : Instr} (h : decode w = .ok i) : w = encode i := by
  rw [encode, ← fields_of_decodeFields h, wordOfFields_fieldsOfWord]

theorem engineStep_crc {cfg : Config} {s t : State} (h : engineStep cfg s = .next t)
    (hne : t.crc ≠ s.crc) : s.phase = .hash ∧ s.pos = s.len := by
  rcases engineStep_cases h with ⟨-, rfl⟩ | ⟨-, rfl⟩ | ⟨-, -, rfl⟩ | ⟨hp, he, -⟩ | ⟨-, -, -, rfl⟩ |
    ⟨-, -, -, -, rfl⟩ | ⟨-, rfl⟩ | ⟨-, -, rfl⟩ | ⟨-, -, -, rfl⟩ | ⟨-, -, -, rfl⟩ |
    ⟨-, -, -, -, rfl⟩ | ⟨-, rfl⟩
  case inr.inr.inr.inl => exact ⟨hp, he⟩
  all_goals exact absurd rfl hne

theorem hostOp_crc (cfg : Config) (o : HostOp) (s : State) : (hostOp cfg o s).crc = s.crc := by
  rcases hostOp_cases cfg o s with ⟨r, n, ht⟩ | ⟨ht, -⟩ | ⟨-, hidle⟩
  · rw [ht]
  · rw [ht]; rfl
  · rcases hidle with ht | ⟨n, -, ht⟩ | ⟨a, b, -, ht⟩ | ⟨w, ht⟩
    · rw [ht]; rfl
    · rw [ht]
    · rw [ht]; rfl
    · rw [ht]
      rcases issue_cases cfg w s with ⟨-, hw⟩ | ⟨-, c, hw⟩ | ⟨i, -, -, hw⟩ <;> rw [hw] <;> rfl

/-- Only the commands with a hash pass change `CRC`. -/
theorem effectOf_crc (cfg : Config) {i : Instr} {s : State} (h : (effectOf cfg i s).crc ≠ s.crc) :
    i = .hash ∨ i = .encryptStd ∨ i = .encryptAlt := by
  cases i with
  | hash => exact .inl rfl
  | encryptStd => exact .inr (.inl rfl)
  | encryptAlt => exact .inr (.inr rfl)
  | cipherStd | cipherAlt | decryptStd | decryptAlt => exact absurd rfl h

theorem runWord_crc {w : Word} {s t : State} (h : runWord exec w s = .next t)
    (hne : t.crc ≠ s.crc) : w = 0x2 ∨ w = 0x3 ∨ w = 0x13 := by
  rcases runWord_cases h with ⟨-, rfl⟩ | ⟨-, c, rfl⟩ | ⟨i, hd, -, -, rfl⟩
  · exact absurd rfl hne
  · exact absurd rfl hne
  · rw [encode_of_decode hd]
    rcases effectOf_crc Config.platform (s := accept i s) hne with rfl | rfl | rfl
    · exact .inl rfl
    · exact .inr (.inl rfl)
    · exact .inr (.inr rfl)

/-! ### Stale registers (spec/10_state.md R21, R23) -/

/-- Acceptance looks at `LEN` and `STATUS` only (R95). -/
theorem refusalOf_congr {cfg : Config} {s s' : State} (hl : s'.len = s.len)
    (hs : s'.status = s.status) (i : Instr) : refusalOf cfg i s' = refusalOf cfg i s := by
  cases i <;> simp only [refusalOf, lengthRefusal, hl, hs]

/-- A `CMD` write leaves `BUF` and `LEN`, and `STATUS` after it follows from `LEN` and `STATUS`. -/
theorem issueInstr_congr {cfg : Config} {s s' : State} (hl : s'.len = s.len)
    (hs : s'.status = s.status) (hb : s'.buf = s.buf) (i : Instr) :
    (issueInstr cfg i s').buf = (issueInstr cfg i s).buf ∧
    (issueInstr cfg i s').len = (issueInstr cfg i s).len ∧
    (issueInstr cfg i s').status = (issueInstr cfg i s).status := by
  rw [issueInstr, issueInstr, refusalOf_congr hl hs, hs]
  split
  · exact ⟨hb, hl, congrArg Status.wroteWhileBusy hs⟩
  · split
    · next c _ => exact ⟨hb, hl, congrArg (fun f => f.doneCleared.refused c) hs⟩
    · exact ⟨hb, hl, congrArg Status.accepted hs⟩

theorem exec_next_of_accepted {i : Instr} {s t : State} (ha : isAccepted Config.platform i s)
    (h : exec i s = .next t) : t = finishStep (effectOf Config.platform i (accept i s)) := by
  obtain ⟨hidle, hnone⟩ := ha
  rcases exec_cases h with ⟨hb, -⟩ | ⟨-, c, hc, -⟩ | ⟨-, -, ht⟩
  · exact absurd (hidle.symm.trans hb) Bool.false_ne_true
  · exact nomatch hnone.symm.trans hc
  · exact ht

/-- What a command leaves in `BUF`, `LEN`, the cipher registers and the checksum's registers follows from
`BUF`, `LEN` and the number of the last reset alone. -/
theorem effectOf_congr (cfg : Config) (i : Instr) {s s' : State} (hl : s'.len = s.len)
    (hb : s'.buf = s.buf) (he : s'.epoch = s.epoch) :
    (effectOf cfg i s').buf = (effectOf cfg i s).buf ∧
    (effectOf cfg i s').len = (effectOf cfg i s).len ∧
    (i = .hash ∨ (cipherState (effectOf cfg i s') = cipherState (effectOf cfg i s) ∧
      (effectOf cfg i s').seed = (effectOf cfg i s).seed ∧
      (effectOf cfg i s').pos = (effectOf cfg i s).pos ∧
      (effectOf cfg i s').rem = (effectOf cfg i s).rem)) ∧
    (i = .hash ∨ i = .encryptStd ∨ i = .encryptAlt →
      (effectOf cfg i s').crc = (effectOf cfg i s).crc ∧
      (effectOf cfg i s').acc = (effectOf cfg i s).acc) := by
  obtain ⟨⟩ := s
  obtain ⟨⟩ := s'
  simp only at hl hb he
  subst hl hb he
  cases i with
  | hash => exact ⟨rfl, rfl, .inl rfl, fun _ => ⟨rfl, rfl⟩⟩
  | encryptStd | encryptAlt =>
    exact ⟨rfl, rfl, .inr ⟨rfl, rfl, rfl, rfl⟩, fun _ => ⟨rfl, rfl⟩⟩
  | cipherStd | cipherAlt | decryptStd | decryptAlt =>
    exact ⟨rfl, rfl, .inr ⟨rfl, rfl, rfl, rfl⟩, by simp⟩

end Sys2Proof.Machine

section

open Sys2Proof Sys2Proof.Machine

/-- Settles O50: by the cases of a step, the micro-steps by phase, an atomic command as its run of
micro-steps. -/
theorem stepKeepsTheInvariant : Obligations.StepKeepsTheInvariant := by
  intro s t h hstep
  obtain ⟨q, hcase⟩ := step_cases hstep
  have hq : Inv Config.platform { s with inputs := q } := h.withHost q s.replies s.draws
  rcases hcase with he | ⟨o, rfl⟩ | rfl | ⟨w, -, hrun⟩ | ⟨v, -, rfl⟩
  · exact inv_engineStep platform_valid hq he
  · exact inv_hostOp hq o
  · exact hq
  · exact inv_runWord hq hrun
  · exact inv_afterReset v _ _ _ _

/-- Settles O54: by the cases of a step; of the micro-steps HASH's exit alone writes `CRC`, and of the
commands those with a hash pass. -/
theorem crcIsWrittenOnlyByTheChecksumEngine : Obligations.CrcIsWrittenOnlyByTheChecksumEngine := by
  intro s t hstep hne
  obtain ⟨q, he | ⟨o, rfl⟩ | rfl | ⟨w, hw, hrun⟩ | ⟨v, hv, -⟩⟩ := step_cases hstep
  · exact .inl (engineStep_crc (s := { s with inputs := q }) he hne)
  · exact absurd (hostOp_crc _ o _) hne
  · exact absurd rfl hne
  · exact .inr (.inl ⟨w, q, hw, runWord_crc hrun hne⟩)
  · exact .inr (.inr ⟨v, q, hv⟩)

/-- Settles O56: the two states are dropped, refused or accepted alike, and an accepted command reads
`BUF` and `LEN` only (`effectOf_congr`). -/
theorem commandsReadNoStaleRegister : Obligations.CommandsReadNoStaleRegister := by
  intro s s' t t' i hl hs hb he h h'
  have hacc : isAccepted Config.platform i s' ↔ isAccepted Config.platform i s := by
    rw [isAccepted, isAccepted, hs, refusalOf_congr hl hs]
  by_cases ha : isAccepted Config.platform i s
  · have ht := exec_next_of_accepted ha h
    have ht' := exec_next_of_accepted (hacc.mpr ha) h'
    obtain ⟨hbuf, hlen, hcipher, hcrc⟩ := effectOf_congr Config.platform i
      (s := accept i s) (s' := accept i s') hl hb he
    obtain ⟨hst, -⟩ := effectOf_frame Config.platform i (accept i s)
    obtain ⟨hst', -⟩ := effectOf_frame Config.platform i (accept i s')
    subst ht ht'
    refine ⟨hbuf, hlen, ?_, fun _ => hcipher.imp_right ?_, fun _ => hcrc⟩
    · simp only [finishStep_status, hst, hst', accept_status, hs]
    · rintro ⟨hc, hseed, hpos, hrem⟩
      obtain ⟨h1, h2, h3, h4⟩ := CipherState.mk.inj hc
      exact ⟨h1, h2, h3, h4, hseed, hpos, hrem⟩
  · rw [exec_not_accepted ha] at h
    rw [exec_not_accepted (mt hacc.mp ha)] at h'
    cases h
    cases h'
    obtain ⟨hbuf, hlen, hst⟩ := issueInstr_congr (cfg := Config.platform) hl hs hb i
    exact ⟨hbuf, hlen, hst, fun h => absurd h ha, fun h => absurd h ha⟩

/-- Settles O1: reset is a literal state, and its storage lists no byte. -/
theorem resetValuesOfEveryRegister : Obligations.ResetValuesOfEveryRegister :=
  ⟨rfl, rfl, rfl, rfl, rfl, rfl, rfl, rfl, rfl, rfl, rfl, rfl, rfl, rfl, rfl, rfl, rfl, rfl,
    fun _ => rfl⟩

/-- Settles O9: the word is the flags, the code above them, and zeros; the codes by the cases of `ERR`. -/
theorem statusWordLayout : Obligations.StatusWordLayout := by
  intro f
  obtain ⟨hbusy, hdone, hfatal, hwrbusy⟩ := f.flags_bits
  refine ⟨?_, ?_, ?_, ?_, ?_, BitVec.extractLsb'_append_eq_left, ?_⟩
  · rw [f.toWord_getLsbD (by decide), hbusy]
  · rw [f.toWord_getLsbD (by decide), hdone]
  · rw [f.toWord_getLsbD (by decide), hfatal]
  · rw [f.toWord_getLsbD (by decide), hwrbusy]
  · rw [Status.toWord, BitVec.extractLsb'_append_eq_of_add_le (by decide)]
    exact BitVec.extractLsb'_append_eq_left
  · cases f.err <;> rfl

/-- Settles O10: an idle read is exact, and `regWord` is the list of the registers by number. -/
theorem registerReadsWhenIdle : Obligations.RegisterReadsWhenIdle := by
  intro s hb r
  have hidle : hostReadReg Config.platform r s = reply (.word (regWord Config.platform r s)) s :=
    if_neg (by simp [hb])
  have hword : regWord Config.platform r s =
      [0, s.status.toWord, s.len, s.crc, s.v1, s.v2, s.v3, s.v4, s.pos, s.rem, s.seed,
        BitVec.ofNat 32 Config.platform.bufCap, 0, 0, 0, 0].getD r.toNat 0 := by
    fin_cases r <;> rfl
  rw [hostOp, hidle, hword, reply]

/-- Settles O15: on an idle block `writeLen` takes the length or refuses it. -/
theorem lenWritesWhenIdle : Obligations.LenWritesWhenIdle := by
  intro s n hb
  show writeLen Config.platform n s = _
  rw [writeLen, if_neg (by simp [hb])]
  rfl

/-- Settles O49: `State.reset` is one of the states after a reset. -/
theorem resetMeetsTheInvariant : Obligations.ResetMeetsTheInvariant :=
  inv_afterReset _ _ _ _ _

end

/-! Proofs of the family 20_memory: the host ports, idle and busy, and which bytes a command touches. -/

namespace Sys2Proof.Machine

/-- A write of the byte that is there already changes nothing. -/
theorem Memory.write_write {dflt : Nat → Byte} {m : Memory} (hm : Memory.wf dflt m) (a : Nat)
    (b : Byte) :
    Memory.write dflt (Memory.write dflt m a b) a b = Memory.write dflt m a b := by
  have hw := Memory.wf_write hm a b
  refine Memory.ext_of_wf (Memory.wf_write hw a b) hw fun x => ?_
  rw [Memory.read_write hw, Memory.read_write hm]
  split
  · rfl
  · rfl

section
variable {cfg : Config} {s : State}

/-! ### The host ports while busy (spec/20_memory.md R73, R75) -/

theorem issue_of_busy (hb : s.status.busy = true) (w : Word) : issue cfg w s = dropWhileBusy s := by
  rcases issue_cases cfg w s with ⟨-, h⟩ | ⟨hidle, -⟩ | ⟨i, -, ⟨hidle, -⟩, -⟩
  · exact h
  · exact absurd (hidle.symm.trans hb) Bool.false_ne_true
  · exact absurd (hidle.symm.trans hb) Bool.false_ne_true

theorem writeLen_of_busy (hb : s.status.busy = true) (n : Word) :
    writeLen cfg n s = dropWhileBusy s := if_pos hb

theorem hostWriteBuf_of_busy (hb : s.status.busy = true) (i : Word) (b : Byte) :
    hostWriteBuf cfg i b s = dropWhileBusy s := if_pos hb

theorem hostReadBuf_of_busy (hb : s.status.busy = true) (i : Word) :
    hostReadBuf cfg i s = replyFreeByte cfg s := if_pos hb

theorem hostReadReg_of_busy (hb : s.status.busy = true) {r : BitVec 4}
    (hr : exactWhileBusy r = false) : hostReadReg cfg r s = replyFreeWord cfg s := if_pos ⟨hb, hr⟩

/-- A read of `CMD`, `STATUS`, `CAP` or a reserved number is exact, busy or idle. -/
theorem hostReadReg_of_exact {r : BitVec 4} (hr : exactWhileBusy r = true) :
    hostReadReg cfg r s = reply (.word (regWord cfg r s)) s := if_neg (by simp [hr])

/-- `CMD` and the reserved numbers are exact while busy, and read 0 (R25). -/
theorem exactWhileBusy_regWord_of_reserved {r : BitVec 4} (hr : r = 0 ∨ 12 ≤ r.toNat) :
    exactWhileBusy r = true ∧ regWord cfg r s = 0 := by
  have numbers : ∀ r : BitVec 4, r = 0 ∨ 12 ≤ r.toNat →
      r = 0 ∨ r = 12 ∨ r = 13 ∨ r = 14 ∨ r = 15 := by decide
  rcases numbers r hr with rfl | rfl | rfl | rfl | rfl <;> exact ⟨rfl, rfl⟩

theorem exactWhileBusy_eq_false :
    ∀ {r : BitVec 4}, 2 ≤ r.toNat → r.toNat ≤ 10 → exactWhileBusy r = false := by decide

/-! ### The host ports while idle (spec/20_memory.md R70 to R76) -/

theorem writeLen_of_idle (hb : s.status.busy = false) (n : Word) :
    writeLen cfg n s = if n.toNat ≤ cfg.bufCap then { s with len := n } else refuse .capacity s :=
  if_neg (by simp [hb])

theorem hostWriteBuf_of_idle (hb : s.status.busy = false) (i : Word) (b : Byte) :
    hostWriteBuf cfg i b s =
      if i.toNat < cfg.bufCap then memWrite cfg s i.toNat [b] else refuse .capacity s :=
  if_neg (by simp [hb])

theorem hostReadReg_of_idle (hb : s.status.busy = false) (r : BitVec 4) :
    hostReadReg cfg r s = reply (.word (regWord cfg r s)) s := if_neg (by simp [hb])

theorem hostReadBuf_of_idle (hb : s.status.busy = false) (i : Word) :
    hostReadBuf cfg i s =
      reply (.byte (if i.toNat < cfg.bufCap then bufByte cfg s i.toNat else 0)) s :=
  if_neg (by simp [hb])

/-- An idle read returns a value, and returns it again after itself (R67). -/
theorem hostOp_read_twice_of_idle (hb : s.status.busy = false) {o : HostOp}
    (ho : (∃ r, o = .readReg r) ∨ (∃ i, o = .readBuf i) ∨ (∃ i, o = .readTable i)) :
    ∃ v, hostOp cfg o s = reply v s ∧ hostOp cfg o (reply v s) = reply v (reply v s) := by
  rcases ho with ⟨r, rfl⟩ | ⟨i, rfl⟩ | ⟨i, rfl⟩
  · exact ⟨_, hostReadReg_of_idle hb r, hostReadReg_of_idle (s := reply _ s) hb r⟩
  · exact ⟨_, hostReadBuf_of_idle hb i, hostReadBuf_of_idle (s := reply _ s) hb i⟩
  · exact ⟨_, rfl, rfl⟩

/-! ### A port write repeated (spec/20_memory.md R67) -/

theorem writeLen_writeLen (cfg : Config) (n : Word) (s : State) :
    writeLen cfg n (writeLen cfg n s) = writeLen cfg n s := by
  cases hb : s.status.busy with
  | true =>
    rw [writeLen_of_busy hb, writeLen_of_busy (s := dropWhileBusy s) hb]
    rfl
  | false =>
    rw [writeLen_of_idle hb]
    split
    · next hn => exact (writeLen_of_idle (s := { s with len := n }) hb n).trans (if_pos hn)
    · next hn => exact (writeLen_of_idle (s := refuse .capacity s) hb n).trans (if_neg hn)

/-- The same byte written twice is the same storage as data. -/
theorem memWrite_memWrite_singleton (hw : Memory.wf (unwritten cfg s) s.buf) (a : Nat) (b : Byte) :
    memWrite cfg (memWrite cfg s a [b]) a [b] = memWrite cfg s a [b] :=
  congrArg (fun m => { s with buf := m }) (Memory.write_write hw a b)

theorem hostWriteBuf_hostWriteBuf (hw : Memory.wf (unwritten cfg s) s.buf) (i : Word) (b : Byte) :
    hostWriteBuf cfg i b (hostWriteBuf cfg i b s) = hostWriteBuf cfg i b s := by
  cases hb : s.status.busy with
  | true =>
    rw [hostWriteBuf_of_busy hb, hostWriteBuf_of_busy (s := dropWhileBusy s) hb]
    rfl
  | false =>
    rw [hostWriteBuf_of_idle hb]
    split
    · next hi =>
      rw [hostWriteBuf_of_idle (s := memWrite cfg s i.toNat [b]) hb, if_pos hi,
        memWrite_memWrite_singleton hw]
    · next hi => exact (hostWriteBuf_of_idle (s := refuse .capacity s) hb i b).trans (if_neg hi)

/-! ### The bytes that a command leaves as they are (spec/20_memory.md R60, R61) -/

theorem memWrite_bufByte_of_le (hw : Memory.wf (unwritten cfg s) s.buf) {a x : Nat} {bs : List Byte}
    (h : a + bs.length ≤ x) : bufByte cfg (memWrite cfg s a bs) x = bufByte cfg s x :=
  (memWrite_bufByte hw a bs x).trans (if_neg (by omega))

theorem cipherPass_bufByte_of_le (hw : Memory.wf (unwritten cfg s) s.buf) (k : Word) {a : Nat}
    (h : s.len.toNat ≤ a) : bufByte cfg (cipherPass cfg k s) a = bufByte cfg s a :=
  (cipherPass_bufByte hw k a).trans (if_neg (by omega))

/-- Four bytes over the end of the buffer reach no byte beyond it (R164, R170). -/
theorem memWrite_end_bufByte (hw : Memory.wf (unwritten cfg s) s.buf) (h4 : 4 ≤ s.len.toNat)
    {bs : List Byte} (hbs : bs.length = 4) {a : Nat} (h : s.len.toNat ≤ a) :
    bufByte cfg (memWrite cfg s (s.len.toNat - 4) bs) a = bufByte cfg s a :=
  memWrite_bufByte_of_le hw (by omega)

/-- No command but `encrypt.std` changes a byte beyond the buffer. -/
theorem effectOf_bufByte_of_ne_encryptStd (hw : Memory.wf (unwritten cfg s) s.buf) {i : Instr}
    (h4 : i = .encryptAlt ∨ i = .decryptStd ∨ i = .decryptAlt → 4 ≤ s.len.toNat)
    (hi : i ≠ .encryptStd) {a : Nat} (ha : s.len.toNat ≤ a) :
    bufByte cfg (effectOf cfg i s) a = bufByte cfg s a := by
  cases i with
  | hash => rfl
  | encryptStd => exact absurd rfl hi
  | cipherStd | cipherAlt | decryptStd => exact cipherPass_bufByte_of_le hw _ ha
  | encryptAlt =>
    have hw' : Memory.wf (unwritten cfg (hashPass cfg s)) (hashPass cfg s).buf := hw
    have htrailer : bufByte cfg (overlayTrailer cfg (hashPass cfg s)) a = bufByte cfg s a :=
      memWrite_end_bufByte hw' (h4 (.inl rfl)) (leBytes_length _) ha
    exact (cipherPass_bufByte_of_le (memWrite_wf hw' _ _) seedAlt ha).trans htrailer
  | decryptAlt =>
    have hzeros := memWrite_end_bufByte (s := cipherPass cfg seedAlt s) (bs := [0, 0, 0, 0])
      (cipherPass_wf hw seedAlt) (h4 (.inr (.inr rfl))) rfl ha
    exact hzeros.trans (cipherPass_bufByte_of_le hw seedAlt ha)

/-- `encrypt.std` changes no byte beyond the trailer that it appends. -/
theorem effectOf_encryptStd_bufByte (hw : Memory.wf (unwritten cfg s) s.buf) (hcap : cfg.Valid)
    (hroom : s.len.toNat + 4 ≤ cfg.bufCap) {a : Nat} (ha : s.len.toNat + 4 ≤ a) :
    bufByte cfg (effectOf cfg .encryptStd s) a = bufByte cfg s a := by
  have hw' : Memory.wf (unwritten cfg (hashPass cfg s)) (hashPass cfg s).buf := hw
  have hlen : (s.len + 4).toNat = s.len.toNat + 4 := toNat_add_four hcap (.inr hroom)
  have htrailer : bufByte cfg (appendTrailer cfg (hashPass cfg s)) a = bufByte cfg s a :=
    memWrite_bufByte_of_le hw' (a := s.len.toNat) ha
  exact (cipherPass_bufByte_of_le (s := appendTrailer cfg (hashPass cfg s)) (memWrite_wf hw' _ _)
    seedStd (hlen.trans_le ha)).trans htrailer

end

/-- A refused or dropped command leaves `BUF`, and the number of the last reset. -/
theorem exec_frame_of_not_accepted {i : Instr} {s t : State}
    (ha : ¬ isAccepted Config.platform i s) (h : exec i s = .next t) :
    t.buf = s.buf ∧ t.epoch = s.epoch := by
  rcases exec_cases h with ⟨-, rfl⟩ | ⟨-, c, -, rfl⟩ | ⟨hacc, -⟩
  · exact ⟨rfl, rfl⟩
  · exact ⟨rfl, rfl⟩
  · exact absurd hacc ha

end Sys2Proof.Machine

section

open Sys2Proof Sys2Proof.Machine

/-- Settles O14: busy or out of range the write only sets a flag, which stays; a byte written twice is
one canonical storage (`Memory.write_write`). -/
theorem lenAndBufWritesAreIdempotent : Obligations.LenAndBufWritesAreIdempotent :=
  ⟨fun s n => writeLen_writeLen Config.platform n s,
    fun _ i b hw => hostWriteBuf_hostWriteBuf hw i b⟩

/-- Settles O16: the bytes after an idle buffer write are those after `memWrite` of one byte. -/
theorem bufferPortWhenIdle : Obligations.BufferPortWhenIdle := by
  intro s i hb
  refine ⟨fun hi hw b => ⟨_, (hostWriteBuf_of_idle hb i b).trans (if_pos hi), fun a => ?_⟩,
    fun hi b => (hostWriteBuf_of_idle hb i b).trans (if_neg (Nat.not_lt.mpr hi)),
    hostReadBuf_of_idle hb i⟩
  exact Memory.read_write hw i.toNat b a

/-- Settles O55: a command that is not accepted leaves `BUF`; an accepted one by its effect, the trailer
of `encrypt.std` apart. -/
theorem commandsTouchNoByteBeyondTheTrailer : Obligations.CommandsTouchNoByteBeyondTheTrailer := by
  intro s t i hw h
  by_cases ha : isAccepted Config.platform i s
  · obtain ⟨hroom, h4⟩ := lengthRefusal_eq_none (refusalOf_eq_none ha.2).2
    have hwa : Memory.wf (unwritten Config.platform (accept i s)) (accept i s).buf := hw
    have hne : i ≠ .encryptStd → ∀ a, s.len.toNat ≤ a →
        bufByte Config.platform t a = bufByte Config.platform s a := by
      rw [exec_next_of_accepted ha h]
      exact fun hi a => effectOf_bufByte_of_ne_encryptStd hwa h4 hi
    refine ⟨fun a hle => ?_, hne, ?_⟩
    · by_cases hi : i = .encryptStd
      · rw [exec_next_of_accepted ha h]
        subst hi
        exact effectOf_encryptStd_bufByte hwa platform_valid (hroom rfl) hle
      · exact hne hi a (by omega)
    · rintro (rfl | hna)
      · rw [exec_next_of_accepted ha h]
        rfl
      · exact absurd ha hna
  · obtain ⟨hbuf, hepoch⟩ := exec_frame_of_not_accepted ha h
    exact ⟨fun a _ => bufByte_congr hbuf hepoch a, fun _ a _ => bufByte_congr hbuf hepoch a,
      fun _ => hbuf⟩

/-- Settles O8: each of the three writes is `dropWhileBusy` on a busy block; no other register number has
a write. -/
theorem writesWhileBusyAreDropped : Obligations.WritesWhileBusyAreDropped :=
  ⟨fun _ hb => ⟨issue_of_busy hb, writeLen_of_busy hb, hostWriteBuf_of_busy hb⟩,
    fun _ _ _ h0 h2 => (if_neg h0).trans (if_neg h2)⟩

/-- Settles O11: by the register's number; a busy block has a valid table under the invariant. -/
theorem readsWhileBusy : Obligations.ReadsWhileBusy := by
  intro s hb
  refine ⟨fun r hr => ?_, hostReadReg_of_exact rfl, hostReadReg_of_exact rfl,
    fun r h2 h10 => hostReadReg_of_busy hb (exactWhileBusy_eq_false h2 h10), hostReadBuf_of_busy hb,
    fun hinv i => ?_⟩
  · obtain ⟨hexact, hzero⟩ := exactWhileBusy_regWord_of_reserved (cfg := Config.platform) (s := s) hr
    rw [hostOp, hostReadReg_of_exact hexact, hzero, reply]
  · have hvalid : ¬ s.status.fatal = true := fun hf =>
      Bool.false_ne_true ((hinv.fatalIdle hf).symm.trans hb)
    rw [hostOp, hostReadTable, tableWordRead, if_neg hvalid, reply]

/-- Settles O12: by the two cases of `FATAL`. -/
theorem tableReads : Obligations.TableReads := by
  intro s i
  rw [hostOp, hostReadTable, tableWordRead]
  split
  · rfl
  · rfl

/-- Settles O13: an idle read appends its value and leaves everything that it looked at. -/
theorem idleReadsRepeat : Obligations.IdleReadsRepeat := by
  intro s o hb ho
  obtain ⟨v, honce, htwice⟩ := hostOp_read_twice_of_idle (cfg := Config.platform) hb ho
  refine ⟨v, honce, ?_⟩
  rw [honce, htwice, reply, reply_replies, List.append_assoc]
  rfl

end

/-! Proofs of the family 30_encoding: the decoder and the encoder (R92, R93), a command word written to an
idle block (R95), FINISH (R97). -/

namespace Sys2Proof

/-! ### The decoder and the encoder (spec/30_encoding.md R92, R93) -/

@[simp] theorem decode_encode (i : Instr) : decode (encode i) = .ok i := by
  cases i <;> rfl

theorem decode_eq_ok_iff {w : Word} {i : Instr} : decode w = .ok i ↔ w = encode i :=
  ⟨Machine.encode_of_decode, fun h => h ▸ decode_encode i⟩

theorem encode_inj {i j : Instr} : encode i = encode j ↔ i = j := by
  rw [← decode_eq_ok_iff, decode_encode, Except.ok.injEq]

theorem fieldsOfWord_encode (i : Instr) : fieldsOfWord (encode i) = i.fields := by
  cases i <;> rfl

/-- The command words are the seven of R92's table. -/
theorem exists_eq_encode_iff {w : Word} :
    (∃ i, w = encode i) ↔
      w = 0x1 ∨ w = 0x11 ∨ w = 0x2 ∨ w = 0x3 ∨ w = 0x13 ∨ w = 0x4 ∨ w = 0x14 := by
  constructor
  · rintro ⟨i, rfl⟩
    cases i <;> decide
  · rintro (rfl | rfl | rfl | rfl | rfl | rfl | rfl)
    exacts [⟨.cipherStd, rfl⟩, ⟨.cipherAlt, rfl⟩, ⟨.hash, rfl⟩, ⟨.encryptStd, rfl⟩,
      ⟨.encryptAlt, rfl⟩, ⟨.decryptStd, rfl⟩, ⟨.decryptAlt, rfl⟩]

theorem exists_decodeFields_error_iff_isOk (f : CmdFields) :
    (∃ e, decodeFields f = .error e) ↔ (decodeFields f).isOk = false := by
  cases decodeFields f <;> simp [Except.isOk, Except.toBool]

/-- The fields that the opcode map rejects are R93's classes: without a reserved bit there are 32 pairs of
`V` and `OP`. -/
theorem exists_decodeFields_error_iff (f : CmdFields) :
    (∃ e, decodeFields f = .error e) ↔
      f.op = 0 ∨ 5 ≤ f.op.toNat ∨ (f.op = 2 ∧ f.v = 1) ∨ f.rsv ≠ 0 := by
  obtain ⟨rsv, v, op⟩ := f
  by_cases hr : rsv = 0
  · subst hr
    have rows : ∀ (v : BitVec 1) (op : BitVec 4), (decodeFields ⟨0, v, op⟩).isOk = false ↔
        op = 0 ∨ 5 ≤ op.toNat ∨ (op = 2 ∧ v = 1) ∨ (0 : BitVec 27) ≠ 0 := by decide
    exact (exists_decodeFields_error_iff_isOk _).trans (rows v op)
  · exact ⟨fun _ => .inr (.inr (.inr hr)), fun _ => ⟨.reservedBits, if_pos hr⟩⟩

end Sys2Proof

namespace Sys2Proof.Machine

section
variable {cfg : Config} {s : State}

/-! ### A command word written to an idle block (spec/30_encoding.md R95) -/

/-- An illegal word meets TABLE before ILLEGAL. -/
theorem issue_of_decode_error (hb : s.status.busy = false) {w : Word} {e : DecodeError}
    (hd : decode w = .error e) :
    issue cfg w s = refuseCommand (if s.status.fatal then .table else .illegal) s := by
  rw [issue, hd]
  exact if_neg (by simp [hb])

/-- The length preconditions, one condition per line of R95. -/
theorem lengthRefusal_eq_ite (i : Instr) :
    lengthRefusal cfg i s =
      if i.fields.op = 4 ∧ s.len.toNat < 4 then some .length
      else if i = .encryptAlt ∧ s.len.toNat < 4 then some .length
      else if i = .encryptStd ∧ s.len.toNat + 4 > cfg.bufCap then some .capacity
      else none := by
  cases i <;> simp [lengthRefusal, Instr.fields]

/-- A command's own word meets the checks in R95's order. -/
theorem issue_encode_of_idle (hb : s.status.busy = false) (i : Instr) :
    issue cfg (encode i) s =
      if s.status.fatal = true then refuseCommand .table s
      else if i.fields.op = 4 ∧ s.len.toNat < 4 then refuseCommand .length s
      else if i = .encryptAlt ∧ s.len.toNat < 4 then refuseCommand .length s
      else if i = .encryptStd ∧ s.len.toNat + 4 > cfg.bufCap then refuseCommand .capacity s
      else accept i s := by
  simp only [issue, decode_encode, issueInstr, hb, Bool.false_eq_true, if_false, refusalOf,
    lengthRefusal_eq_ite]
  split_ifs <;> rfl

/-! ### FINISH (spec/30_encoding.md R97) -/

theorem engineStep_finish (hp : s.phase = .finish) : engineStep cfg s = .next (finishStep s) := by
  rw [engineStep, hp]

end

end Sys2Proof.Machine

section

open Sys2Proof Sys2Proof.Machine

/-- Settles O4: the opcode map names a command for its own fields only (`encode_of_decode`), and every
command's word decodes to it (`decode_encode`). -/
theorem decodeAndEncodeAgreeOnAllWords : Obligations.DecodeAndEncodeAgreeOnAllWords :=
  fun _ _ => decode_eq_ok_iff

/-- Settles O5: the rejected fields are R93's classes, and an idle block refuses an illegal word with
ILLEGAL unless TABLE comes first. -/
theorem illegalWordsAreRefusedWithCodeIllegal : Obligations.IllegalWordsAreRefusedWithCodeIllegal := by
  refine fun w => ⟨exists_decodeFields_error_iff (fieldsOfWord w), ?_⟩
  rintro ⟨e, hd⟩ s hb hf
  show issue Config.platform w s = _
  rw [issue_of_decode_error hb hd, if_neg (by simp [hf])]
  rfl

/-- Settles O6: a word that is no command's meets TABLE or ILLEGAL; a command's own word meets the checks of
`issue_encode_of_idle`, whose conditions on the command are conditions on its word. -/
theorem commandIssueFollowsTheAcceptanceOrder : Obligations.CommandIssueFollowsTheAcceptanceOrder := by
  intro s w hb
  show issue Config.platform w s = _
  cases hd : decode w with
  | error e =>
    have hillegal : ¬ ∃ i, w = encode i := fun ⟨i, hi⟩ =>
      nomatch hd.symm.trans (decode_eq_ok_iff.mpr hi)
    rw [issue_of_decode_error hb hd, if_pos (mt exists_eq_encode_iff.mpr hillegal)]
    split
    · rfl
    · rfl
  | ok i =>
    obtain rfl := encode_of_decode hd
    have hop : (encode i).extractLsb' 0 4 = i.fields.op :=
      congrArg CmdFields.op (fieldsOfWord_encode i)
    have hv : (encode i).extractLsb' 4 1 = i.fields.v := congrArg CmdFields.v (fieldsOfWord_encode i)
    have halt : encode i = 0x13 ↔ i = .encryptAlt := encode_inj (j := .encryptAlt)
    have hstd : encode i = 0x3 ↔ i = .encryptStd := encode_inj (j := .encryptStd)
    rw [issue_encode_of_idle hb, if_neg (not_not.mpr (exists_eq_encode_iff.mp ⟨i, rfl⟩))]
    simp only [hop, hv, halt, hstd]
    rfl

/-- Settles O3: the seven words are the commands' own; the decoder rejects each of the other four. -/
theorem specWordsDecodeAsTheSpecSays : Obligations.SpecWordsDecodeAsTheSpecSays :=
  ⟨decode_encode .cipherStd, decode_encode .cipherAlt, decode_encode .hash, decode_encode .encryptStd,
    decode_encode .encryptAlt, decode_encode .decryptStd, decode_encode .decryptAlt,
    rfl, rfl, rfl, rfl⟩

/-- Settles O36: FINISH is `finishStep`. -/
theorem finishMicroStep : Obligations.FinishMicroStep :=
  fun _ hp => engineStep_finish hp

end

/-! Proofs of the family 40_keystream_cipher: `ks_init` and `ks_next` (R110, R113), the laws of `cipher`
(R119), the micro-steps of a cipher pass (R111, R116, R117), the commands `cipher.*` (R120, R121). -/

namespace Sys2Proof.Machine

/-! ### `ks_init` and `ks_next` (spec/40_keystream_cipher.md R110, R113) -/

/-- A line of `ks_init` over natural numbers: with a constant below 2^25 the sum never wraps. -/
theorem ksLine_toNat (x c : Word) (hc : c.toNat < 2 ^ 25) :
    ((x / 32 + c) ^^^ (x * ksMul)).toNat =
      (x.toNat / 32 + c.toNat) ^^^ (x.toNat * 0x1DA597 % 2 ^ 32) := by
  have hsum : (x / 32 + c).toNat = x.toNat / 32 + c.toNat := by
    have hx := x.isLt
    rw [BitVec.toNat_add, BitVec.toNat_udiv, show (32 : Word).toNat = 32 from rfl]
    omega
  rw [BitVec.toNat_xor, hsum, BitVec.toNat_mul]
  rfl

/-- The divisions and the product of `ks_next` are shifts, and shifting right by 8 the exclusive or of two
words is shifting each of them. -/
theorem ksOut_eq_shift (c : CipherState) :
    ksOut c = c.v4 ^^^ (c.v4 >>> 19) ^^^ (c.v1 ^^^ (c.v1 <<< 11)) ^^^
      ((c.v1 ^^^ (c.v1 <<< 11)) >>> 8) := by
  have hmul : c.v1 * (2048 : Word) = c.v1 <<< 11 := BitVec.mul_twoPow_eq_shiftLeft c.v1 11
  have hdiv11 : c.v4 / (2048 : Word) = c.v4 >>> 11 := BitVec.udiv_twoPow_eq_of_lt (k := 11) (by decide)
  have hdiv8 : ∀ x : Word, x / (256 : Word) = x >>> 8 := fun _ =>
    BitVec.udiv_twoPow_eq_of_lt (k := 8) (by decide)
  have hsplit : ∀ t : Word, ((c.v4 >>> 11) ^^^ t) >>> 8 = (c.v4 >>> 19) ^^^ (t >>> 8) := fun t => by
    rw [BitVec.ushiftRight_xor_distrib, ← BitVec.shiftRight_add]
  rw [ksOut, hmul, hdiv11, hdiv8, hsplit, BitVec.xor_comm (c.v1 <<< 11)]
  ac_rfl

/-! ### Laws of `cipher` (spec/40_keystream_cipher.md R119) -/

theorem cipherFrom_cipherFrom (k : Word) (i : Nat) (b : List Byte) :
    cipherFrom k i (cipherFrom k i b) = b := by
  induction b generalizing i with
  | nil => rfl
  | cons x b ih => rw [cipherFrom, cipherFrom, ih, xor_cancel_right]

theorem take_cipherFrom (k : Word) (i n : Nat) (b : List Byte) :
    (cipherFrom k i b).take n = cipherFrom k i (b.take n) := by
  induction b generalizing i n with
  | nil => rw [cipherFrom, List.take_nil, cipherFrom]
  | cons x b ih =>
    cases n with
    | zero => rfl
    | succ n => rw [cipherFrom, List.take_succ_cons, ih, List.take_succ_cons, cipherFrom]

/-- Zero bytes enciphered are the keystream itself. -/
theorem cipherFrom_replicate_zero (k : Word) (i n : Nat) :
    cipherFrom k i (List.replicate n 0) = (List.range' i n).map (ksByte k) := by
  induction n generalizing i with
  | zero => rfl
  | succ n ih => rw [List.replicate_succ, cipherFrom, ih, List.range'_succ, List.map_cons, zero_xor]

section
variable {cfg : Config} {s : State}

/-! ### The STRIDE micro-step (spec/40_keystream_cipher.md R116, R117) -/

theorem engineStep_stride (hp : s.phase = .stride) : engineStep cfg s = strideStep cfg s := by
  rw [engineStep, hp]

/-- Every byte of `BUF` after a stride: the enabled lanes are mixed in (R115). -/
theorem strideBody_bufByte (hw : Memory.wf (unwritten cfg s) s.buf) (a : Nat) :
    bufByte cfg (strideBody cfg s) a =
      if s.pos.toNat ≤ a ∧ a < s.pos.toNat + lanes s then
        bufByte cfg s a ^^^ lane (ksOut (cipherState s)) (a - s.pos.toNat)
      else bufByte cfg s a := by
  have hwrite := memWrite_bufByte hw s.pos.toNat
    (mixFrom (ksOut (cipherState s)) 0 (memRead cfg s s.pos.toNat (lanes s))) a
  rw [mixFrom_length, memRead_length] at hwrite
  refine hwrite.trans ?_
  split
  · next h =>
    obtain ⟨hle, hlt⟩ := h
    have hk : a - s.pos.toNat < lanes s := by omega
    rw [mixFrom_getD _ _ _ _ (by rwa [memRead_length]), memRead_getD _ _ _ _ _ hk, Nat.zero_add,
      Nat.add_sub_cancel' hle]
  · rfl

/-! ### A cipher pass twice (spec/40_keystream_cipher.md R119) -/

/-- A second pass with the same seed undoes the first one, as data. -/
theorem cipherPass_cipherPass_buf (hw : Memory.wf (unwritten cfg s) s.buf) (k : Word) :
    (cipherPass cfg k (cipherPass cfg k s)).buf = s.buf := by
  have hw1 := cipherPass_wf hw k
  refine Memory.ext_of_wf (cipherPass_wf (s := cipherPass cfg k s) hw1 k) hw fun a => ?_
  show bufByte cfg (cipherPass cfg k (cipherPass cfg k s)) a = bufByte cfg s a
  rw [cipherPass_bufByte hw1, cipherPass_bufByte hw, cipherPass_len]
  split
  · exact xor_cancel_right _ _
  · rfl

end

/-! ### A command on a ready block (spec/30_encoding.md R95, R96), and a cipher command twice (R119) -/

theorem isAccepted_of_ready {cfg : Config} {i : Instr} {s : State} (h : Ready cfg s)
    (hl : lengthRefusal cfg i s = none) : isAccepted cfg i s := by
  obtain ⟨hb, hf, -⟩ := h
  exact ⟨hb, (if_neg (by simp [hf])).trans hl⟩

/-- A ready block completes every command whose length precondition holds. -/
theorem exec_of_ready {i : Instr} {s : State} (h : Ready Config.platform s)
    (hl : lengthRefusal Config.platform i s = none) :
    exec i s = .next (finishStep (effectOf Config.platform i (accept i s))) :=
  exec_accepted (isAccepted_of_ready h hl) h.2.2

/-- A command that is a cipher pass without a length precondition leaves the block ready, and run again it
restores the buffer. -/
theorem exec_twice_of_cipherPass {i : Instr} {k : Word} {s : State}
    (heffect : effectOf Config.platform i = cipherPass Config.platform k)
    (hlen : ∀ t, lengthRefusal Config.platform i t = none) (hs : Ready Config.platform s)
    (hw : Memory.wf (unwritten Config.platform s) s.buf) :
    ∃ t u, exec i s = .next t ∧ exec i t = .next u ∧ u.buf = s.buf ∧ u.len = s.len := by
  have once : ∀ t, Ready Config.platform t →
      exec i t = .next (finishStep (cipherPass Config.platform k (accept i t))) := fun t ht =>
    heffect ▸ exec_of_ready ht (hlen t)
  exact ⟨_, _, once s hs, once _ ⟨rfl, hs.2⟩, cipherPass_cipherPass_buf (s := accept i s) hw k, rfl⟩

end Sys2Proof.Machine

section

open Sys2Proof Sys2Proof.Machine

/-- Settles O18: each line is `ksLine_toNat`, the first one with the constant 0; the worked values by
evaluation. -/
theorem ksInitOverNaturalNumbers : Obligations.KsInitOverNaturalNumbers := by
  refine ⟨fun seed => ⟨?_, ksLine_toNat _ ksAdd2 (by decide), ksLine_toNat _ ksAdd3 (by decide),
    ksLine_toNat _ ksAdd4 (by decide)⟩, rfl, rfl, rfl⟩
  have hfirst := ksLine_toNat seed 0#32 (by decide)
  rwa [BitVec.add_zero] at hfirst

/-- Settles O19: `ksOut_eq_shift` is the statement. -/
theorem keystreamWordInShiftForm : Obligations.KeystreamWordInShiftForm := ksOut_eq_shift

/-- Settles O20: `cipher` is `cipherFrom` from keystream byte 0 on, where each law is an induction on the
list. -/
theorem cipherLaws : Obligations.CipherLaws := by
  refine fun b k => ⟨cipherFrom_cipherFrom k 0 b, cipher_length b k, fun n => take_cipherFrom k 0 n b,
    rfl, fun n => ?_⟩
  rw [cipher, cipherFrom_replicate_zero, List.range_eq_range']

/-- Settles O22: the step is `strideBody`, whose bytes `strideBody_bufByte` gives. -/
theorem strideMicroStep : Obligations.StrideMicroStep := by
  intro s hp hr hroom hw
  refine ⟨(strideBody Config.platform s).buf, ?_, strideBody_bufByte hw⟩
  rw [engineStep_stride hp, strideStep, if_neg hr, if_pos (show inBuffer _ _ (lanes s) from hroom),
    strideBody, hp]
  rfl

/-- Settles O24: an accepted `cipher.std` is one cipher pass, whose bytes `cipherPass_bufByte` gives. -/
theorem cipherStdResult : Obligations.CipherStdResult := fun s hs hw =>
  ⟨_, exec_of_ready hs rfl, cipherPass_bufByte (s := accept .cipherStd s) hw seedStd⟩

/-- Settles O25: as O24, with the alternate seed. -/
theorem cipherAltResult : Obligations.CipherAltResult := fun s hs hw =>
  ⟨_, exec_of_ready hs rfl, cipherPass_bufByte (s := accept .cipherAlt s) hw seedAlt⟩

/-- Settles O44: each of the two commands is one cipher pass, and a pass undoes itself. -/
theorem cipherTwiceRestoresTheBuffer : Obligations.CipherTwiceRestoresTheBuffer := by
  rintro s i (rfl | rfl) hs hw
  · exact exec_twice_of_cipherPass rfl (fun _ => rfl) hs hw
  · exact exec_twice_of_cipherPass rfl (fun _ => rfl) hs hw

/-- Settles O21: the step is `ksinitStep`. -/
theorem ksinitMicroStep : Obligations.KsinitMicroStep := by
  intro s hp
  rw [engineStep, hp]
  rfl

/-- Settles O23: the step is `strideExit`. -/
theorem strideExitMicroStep : Obligations.StrideExitMicroStep :=
  fun _ hp hr => (engineStep_stride hp).trans (if_pos hr)

end

/-! Proofs of the family 41_checksum_engine: the byte step `crc_step` (R140), the laws of `hash` (R145), the
micro-steps HINIT and HASH (R141 to R143), the command `hash` (R146). -/

namespace Sys2Proof.Machine

/-! ### `crc_step` (spec/41_checksum_engine.md R140) -/

theorem crcIndex_toNat (acc : Word) (b : Byte) :
    (crcIndex acc b).toNat = b.toNat ^^^ (acc.toNat / 2 ^ 24) := by
  rw [crcIndex, zext32, BitVec.toNat_xor, BitVec.toNat_setWidth_of_le (by decide),
    BitVec.toNat_ushiftRight, Nat.shiftRight_eq_div_pow]

/-- The index needs no masking: both operands are below 256. -/
theorem crcIndex_lt (acc : Word) (b : Byte) : (crcIndex acc b).toNat < 256 := by
  have htop : acc.toNat / 2 ^ 24 < 2 ^ 8 := by
    have hacc := acc.isLt
    omega
  rw [crcIndex_toNat]
  exact Nat.xor_lt_two_pow b.isLt htop

/-- The index within its 8 bits is the byte against the accumulator's top byte. -/
theorem crcIndex_setWidth (acc : Word) (b : Byte) :
    (crcIndex acc b).setWidth 8 = b ^^^ acc.extractLsb' 24 8 := by
  rw [crcIndex, zext32, BitVec.setWidth_xor, BitVec.setWidth_setWidth_of_le _ (by decide),
    BitVec.setWidth_eq, BitVec.setWidth_ushiftRight_eq_extractLsb]

theorem crcStep_eq (table : BitVec 8 → Word) (acc : Word) (b : Byte) :
    crcStep table acc b = table (b ^^^ acc.extractLsb' 24 8) ^^^ (acc <<< 8) := by
  rw [crcStep, crcIndex_setWidth]

/-! ### Laws of `hash` (spec/41_checksum_engine.md R145) -/

theorem crcFold_singleton (table : BitVec 8 → Word) (b : Byte) :
    crcFold table [b] = table (b ^^^ 0xFF) ^^^ 0xFFFFFF00 :=
  crcStep_eq table accInit b

/-- Both uses of the first byte's accumulator split at its constant, `0xFFFFFF00`. -/
theorem crcFold_pair (table : BitVec 8 → Word) (b0 b1 : Byte) :
    crcFold table [b0, b1] =
      table (b1 ^^^ 0xFF ^^^ (table (b0 ^^^ 0xFF)).extractLsb' 24 8) ^^^
        (table (b0 ^^^ 0xFF) <<< 8) ^^^ 0xFFFF0000 := by
  have htop : ∀ t : Word, (t ^^^ 0xFFFFFF00).extractLsb' 24 8 = 0xFF ^^^ t.extractLsb' 24 8 :=
    fun t => BitVec.extractLsb'_xor.trans (BitVec.xor_comm _ _)
  have hshift : ∀ t : Word, (t ^^^ 0xFFFFFF00) <<< 8 = (t <<< 8) ^^^ 0xFFFF0000 := fun t =>
    BitVec.shiftLeft_xor_distrib t 0xFFFFFF00 8
  show crcStep table (crcFold table [b0]) b1 = _
  rw [crcFold_singleton, crcStep_eq, htop, hshift, BitVec.xor_assoc b1, BitVec.xor_assoc (table _)]

/-- The fold over the buffer, by index. -/
theorem crcFold_payload (cfg : Config) (s : State) :
    crcFold cfg.table (payload cfg s) = (List.range s.len.toNat).foldl
      (fun acc k => crcStep cfg.table acc (bufByte cfg s k)) accInit := by
  simp only [crcFold, payload, memRead, List.foldl_map, Nat.zero_add]

/-! ### The HASH micro-step (spec/41_checksum_engine.md R142, R143) -/

section
variable {cfg : Config} {s : State}

theorem engineStep_hash (hp : s.phase = .hash) : engineStep cfg s = hashStep cfg s := by
  rw [engineStep, hp]

theorem hashStep_of_pos_lt (hlt : s.pos.toNat < s.len.toNat) (hc : s.len.toNat ≤ cfg.bufCap) :
    hashStep cfg s = .next (hashByte cfg s) :=
  (if_pos hlt).trans (if_pos (show s.pos.toNat + 1 ≤ cfg.bufCap by omega))

theorem hashStep_of_pos_eq (he : s.pos = s.len) : hashStep cfg s = hashExit s :=
  (if_neg (by simp [he])).trans (if_pos he)

end

end Sys2Proof.Machine

section

open Sys2Proof Sys2Proof.Machine

/-- Settles O26: the index is `crcIndex_toNat`; within 8 bits and 32 bits the step's two words are those of
the natural numbers. -/
theorem crcStepIndexIsBounded : Obligations.CrcStepIndexIsBounded := by
  refine fun table acc b => ⟨crcIndex_toNat acc b, crcIndex_lt acc b, ?_⟩
  have hshift : acc <<< 8 = BitVec.ofNat 32 (acc.toNat * 2 ^ 8) := by
    rw [← Nat.shiftLeft_eq]
    rfl
  rw [crcStep, ← crcIndex_toNat, BitVec.ofNat_toNat, hshift]

/-- Settles O27: each checksum is the complement of a fold over at most two bytes, and the complement goes
into its last constant. -/
theorem checksumOfShortBuffers : Obligations.ChecksumOfShortBuffers := by
  refine fun table b0 b1 => ⟨?_, ?_, ?_⟩
  · show ~~~ accInit = 0
    decide
  · rw [hashBytes, crcFold_singleton, BitVec.not_xor_right]
    rfl
  · rw [hashBytes, crcFold_pair, BitVec.not_xor_right]
    rfl

/-- Settles O31: an accepted `hash` is one hash pass, whose fold `crcFold_payload` gives by index. -/
theorem hashResult : Obligations.HashResult := by
  intro s hs
  have hfold := crcFold_payload Config.platform (accept .hash s)
  rw [exec_of_ready hs rfl, effectOf, hashPass, hashBytes, hfold]
  rfl

/-- Settles O28: the step is `hinitStep`. -/
theorem hinitMicroStep : Obligations.HinitMicroStep := fun _ hp => engineStep_hinit hp

/-- Settles O29: the step is `hashByte`, and the block is in HASH already. -/
theorem hashByteMicroStep : Obligations.HashByteMicroStep := by
  intro s hp hlt hc
  rw [engineStep_hash hp, hashStep_of_pos_lt hlt hc, hashByte, hp]

/-- Settles O30: the step is `hashExit`, by the two values of `OPL`. -/
theorem hashExitMicroStep : Obligations.HashExitMicroStep := by
  intro s hp he
  rw [engineStep_hash hp, hashStep_of_pos_eq he, hashExit]
  exact ⟨fun ho => if_pos ho, fun ho => (if_neg (by rw [ho]; decide)).trans (if_pos ho)⟩

end

/-! Proofs of the family 42_format_orchestration: the micro-steps TRAIL and POST (R161, R164, R167, R170),
the commands `encrypt.*` and `decrypt.*` (R160, R163, R166, R169), and the round trips (R172). -/

namespace Sys2Proof.Machine

/-! ### The trailer as bytes and the length around it (spec/42_format_orchestration.md R161, R167) -/

theorem leBytes_getD (w : Word) {k : Nat} (hk : k < 4) : (leBytes w).getD k 0 = lane w k := by
  interval_cases k <;> rfl

/-- `ACC` after a hash pass is the complement of `CRC` (R144). -/
theorem not_hashBytes (table : BitVec 8 → Word) (b : List Byte) :
    ~~~ hashBytes table b = crcFold table b := BitVec.not_not

/-- `LEN - 4` does not wrap where the buffer has four bytes to drop. -/
theorem sub_four_eq_ofNat {n : Word} (h4 : 4 ≤ n.toNat) : n - 4 = BitVec.ofNat 32 (n.toNat - 4) := by
  bv_omega

section
variable {cfg : Config} {s : State}

/-! ### The length preconditions (spec/30_encoding.md R96) -/

theorem lengthRefusal_encryptStd (hroom : s.len.toNat + 4 ≤ cfg.bufCap) :
    lengthRefusal cfg .encryptStd s = none := if_neg (Nat.not_lt.mpr hroom)

theorem lengthRefusal_of_four_le {i : Instr} (hi : i ≠ .encryptStd) (h4 : 4 ≤ s.len.toNat) :
    lengthRefusal cfg i s = none := by
  have hlt : ¬ s.len.toNat < 4 := Nat.not_lt.mpr h4
  cases i with
  | encryptStd => exact absurd rfl hi
  | cipherStd | cipherAlt | hash => rfl
  | encryptAlt | decryptStd | decryptAlt => exact if_neg hlt

/-! ### Every byte of `BUF` after TRAIL and POST (R161, R164, R170) -/

theorem appendTrailer_bufByte (hw : Memory.wf (unwritten cfg s) s.buf) (a : Nat) :
    bufByte cfg (appendTrailer cfg s) a =
      if s.len.toNat ≤ a ∧ a < s.len.toNat + 4 then lane s.crc (a - s.len.toNat)
      else bufByte cfg s a := by
  refine (memWrite_bufByte hw s.len.toNat (leBytes s.crc) a).trans ?_
  rw [leBytes_length]
  split
  · exact leBytes_getD _ (by omega)
  · rfl

theorem overlayTrailer_bufByte (hw : Memory.wf (unwritten cfg s) s.buf) (h4 : 4 ≤ s.len.toNat)
    (a : Nat) :
    bufByte cfg (overlayTrailer cfg s) a =
      if s.len.toNat - 4 ≤ a ∧ a < s.len.toNat then lane s.crc (a - (s.len.toNat - 4))
      else bufByte cfg s a := by
  rw [overlayTrailer, memWrite_bufByte hw, leBytes_length, Nat.sub_add_cancel h4]
  split
  · exact leBytes_getD _ (by omega)
  · rfl

theorem zeroTrailer_bufByte (hw : Memory.wf (unwritten cfg s) s.buf) (h4 : 4 ≤ s.len.toNat)
    (a : Nat) :
    bufByte cfg (zeroTrailer cfg s) a =
      if s.len.toNat - 4 ≤ a ∧ a < s.len.toNat then 0 else bufByte cfg s a := by
  have hzero : ∀ k, ([0, 0, 0, 0] : List Byte).getD k 0 = 0 :=
    fun k => List.getElem?_getD_replicate_default_eq (d := 0) 4 k
  have hlength : ([0, 0, 0, 0] : List Byte).length = 4 := rfl
  rw [zeroTrailer, memWrite_bufByte hw, hzero, hlength, Nat.sub_add_cancel h4]

/-! ### Every byte of `BUF` after the big step of a command (R160, R163, R169) -/

/-- A cipher pass over a buffer whose bytes from `n` on are a trailer: `y` is the trailer's byte, `x` the
byte elsewhere. -/
theorem cipherPass_bufByte_of_trailer (hw : Memory.wf (unwritten cfg s) s.buf) {n a : Nat} {x y : Byte}
    (hn : n ≤ s.len.toNat) (ha : bufByte cfg s a = if n ≤ a ∧ a < s.len.toNat then y else x) (k : Word) :
    bufByte cfg (cipherPass cfg k s) a =
      if a < n then x ^^^ ksByte k a else if a < s.len.toNat then y ^^^ ksByte k a else x := by
  rw [cipherPass_bufByte hw, ha]
  by_cases hpay : a < n
  · rw [if_pos (by omega), if_neg (by omega), if_pos hpay]
  · by_cases hend : a < s.len.toNat
    · rw [if_pos hend, if_pos (by omega), if_neg hpay, if_pos hend]
    · rw [if_neg hend, if_neg (by omega), if_neg hpay, if_neg hend]

theorem effectOf_encryptStd_bufByte_eq (hw : Memory.wf (unwritten cfg s) s.buf) (hcap : cfg.Valid)
    (hroom : s.len.toNat + 4 ≤ cfg.bufCap) (a : Nat) :
    bufByte cfg (effectOf cfg .encryptStd s) a =
      if a < s.len.toNat then bufByte cfg s a ^^^ ksByte seedStd a
      else if a < s.len.toNat + 4 then
        lane (hashBytes cfg.table (payload cfg s)) (a - s.len.toNat) ^^^ ksByte seedStd a
      else bufByte cfg s a := by
  have hlen : (s.len + 4).toNat = s.len.toNat + 4 := toNat_add_four hcap (.inr hroom)
  have htrailer := appendTrailer_bufByte (s := hashPass cfg s) hw a
  rw [hashPass_len, ← hlen] at htrailer
  rw [← hlen]
  exact cipherPass_bufByte_of_trailer (s := appendTrailer cfg (hashPass cfg s))
    (memWrite_wf (s := hashPass cfg s) hw _ _) ((Nat.le_add_right _ 4).trans_eq hlen.symm) htrailer
    seedStd

theorem effectOf_encryptAlt_bufByte_eq (hw : Memory.wf (unwritten cfg s) s.buf)
    (h4 : 4 ≤ s.len.toNat) (a : Nat) :
    bufByte cfg (effectOf cfg .encryptAlt s) a =
      if a < s.len.toNat - 4 then bufByte cfg s a ^^^ ksByte seedAlt a
      else if a < s.len.toNat then
        lane (hashBytes cfg.table (payload cfg s)) (a - (s.len.toNat - 4)) ^^^ ksByte seedAlt a
      else bufByte cfg s a :=
  cipherPass_bufByte_of_trailer (s := overlayTrailer cfg (hashPass cfg s))
    (memWrite_wf (s := hashPass cfg s) hw _ _) (Nat.sub_le _ 4)
    (overlayTrailer_bufByte (s := hashPass cfg s) hw h4 a) seedAlt

theorem effectOf_decryptAlt_bufByte_eq (hw : Memory.wf (unwritten cfg s) s.buf)
    (h4 : 4 ≤ s.len.toNat) (a : Nat) :
    bufByte cfg (effectOf cfg .decryptAlt s) a =
      if a < s.len.toNat - 4 then bufByte cfg s a ^^^ ksByte seedAlt a
      else if a < s.len.toNat then 0
      else bufByte cfg s a := by
  rw [effectOf, zeroTrailer_bufByte (cipherPass_wf hw seedAlt) h4, cipherPass_bufByte hw,
    cipherPass_len]
  by_cases hpay : a < s.len.toNat - 4
  · rw [if_neg (by omega), if_pos (by omega), if_pos hpay]
  · by_cases hend : a < s.len.toNat
    · rw [if_pos (by omega), if_neg hpay, if_pos hend]
    · rw [if_neg (by omega), if_neg hend, if_neg hpay, if_neg hend]

/-- The big step of every command keeps buffer storage in its canonical form. -/
theorem effectOf_wf (hw : Memory.wf (unwritten cfg s) s.buf) (i : Instr) :
    Memory.wf (unwritten cfg s) (effectOf cfg i s).buf := by
  have htrailer : ∀ a bs, Memory.wf (unwritten cfg s) (memWrite cfg (hashPass cfg s) a bs).buf :=
    memWrite_wf (s := hashPass cfg s) hw
  cases i with
  | hash => exact hw
  | cipherStd | cipherAlt | decryptStd => exact cipherPass_wf hw _
  | encryptStd => exact cipherPass_wf (s := appendTrailer cfg (hashPass cfg s)) (htrailer _ _) _
  | encryptAlt => exact cipherPass_wf (s := overlayTrailer cfg (hashPass cfg s)) (htrailer _ _) _
  | decryptAlt => exact memWrite_wf (s := cipherPass cfg seedAlt s) (cipherPass_wf hw _) _ _

end

/-- Every command, accepted or not, keeps buffer storage in its canonical form. -/
theorem exec_wf {i : Instr} {s t : State} (hw : Memory.wf (unwritten Config.platform s) s.buf)
    (h : exec i s = .next t) : Memory.wf (unwritten Config.platform t) t.buf := by
  rcases exec_cases h with ⟨-, rfl⟩ | ⟨-, c, -, rfl⟩ | ⟨-, -, rfl⟩
  · exact hw
  · exact hw
  · obtain ⟨-, -, -, -, -, -, hepoch, -⟩ := effectOf_frame Config.platform i (accept i s)
    have hdflt : unwritten Config.platform (finishStep (effectOf Config.platform i (accept i s))) =
        unwritten Config.platform (accept i s) := by
      rw [unwritten, unwritten, finishStep_epoch, hepoch]
    rw [hdflt]
    exact effectOf_wf (s := accept i s) hw i

/-! ### What an `encrypt` leaves for the `decrypt` after it (spec/42_format_orchestration.md R160, R163) -/

section
variable {s : State}

/-- `encrypt.std` leaves a ready block, four bytes longer. -/
theorem encryptStd_completes (hs : Ready Config.platform s)
    (hroom : s.len.toNat + 4 ≤ Config.platform.bufCap)
    (hw : Memory.wf (unwritten Config.platform s) s.buf) :
    ∃ t, exec .encryptStd s = .next t ∧ Ready Config.platform t ∧
      Memory.wf (unwritten Config.platform t) t.buf ∧ t.len.toNat = s.len.toNat + 4 ∧
      t.crc = hashBytes Config.platform.table (payload Config.platform s) ∧
      t.status = statusDone s.status ∧
      ∀ a, bufByte Config.platform t a =
        bufByte Config.platform (effectOf Config.platform .encryptStd s) a := by
  have hexec := exec_of_ready hs (lengthRefusal_encryptStd hroom)
  have hlen : (s.len + 4).toNat = s.len.toNat + 4 := toNat_add_four platform_valid (.inr hroom)
  obtain ⟨-, hvalid, -⟩ := hs
  exact ⟨_, hexec, ⟨rfl, hvalid, hlen.trans_le hroom⟩, exec_wf hw hexec, hlen, rfl, rfl,
    fun _ => rfl⟩

/-- `encrypt.alt` leaves a ready block of the same length. -/
theorem encryptAlt_completes (hs : Ready Config.platform s) (h4 : 4 ≤ s.len.toNat)
    (hw : Memory.wf (unwritten Config.platform s) s.buf) :
    ∃ t, exec .encryptAlt s = .next t ∧ Ready Config.platform t ∧
      Memory.wf (unwritten Config.platform t) t.buf ∧ t.len = s.len ∧
      ∀ a, bufByte Config.platform t a =
        bufByte Config.platform (effectOf Config.platform .encryptAlt s) a := by
  have hexec := exec_of_ready hs (lengthRefusal_of_four_le (i := .encryptAlt) (by decide) h4)
  exact ⟨_, hexec, ⟨rfl, hs.2⟩, exec_wf hw hexec, rfl, fun _ => rfl⟩

end

/-! ### The round trips on byte lists (spec/42_format_orchestration.md R171, R172) -/

theorem cipher_cipher (b : List Byte) (k : Word) : cipher (cipher b k) k = b :=
  cipherFrom_cipherFrom k 0 b

/-- Deciphering gives the list before the trailer back, whatever the trailer's four bytes are. -/
theorem take_cipher_cipher_append (p : List Byte) (w k : Word) :
    (cipher (cipher (p ++ leBytes w) k) k).take ((cipher (p ++ leBytes w) k).length - 4) = p := by
  rw [cipher_cipher, cipher_length, List.length_append, leBytes_length, Nat.add_sub_cancel,
    List.take_left]

end Sys2Proof.Machine

section

open Sys2Proof Sys2Proof.Machine

/-- Settles O32: the step is `appendTrailer`, whose bytes `appendTrailer_bufByte` gives. -/
theorem trailStdMicroStep : Obligations.TrailStdMicroStep := by
  intro s hp hv hroom hw
  have hstep := engineStep_trail_std (s := s) hv hroom
  rw [← hp] at hstep
  exact ⟨_, hstep, appendTrailer_bufByte hw⟩

/-- Settles O33: the step is `overlayTrailer`, whose bytes `overlayTrailer_bufByte` gives. -/
theorem trailAltMicroStep : Obligations.TrailAltMicroStep := by
  intro s hp hv h4 hl hw
  have hstep := engineStep_trail_alt (s := s) (by rw [hv]; decide) h4 hl
  rw [← hp] at hstep
  exact ⟨_, hstep, overlayTrailer_bufByte hw h4⟩

/-- Settles O35: the step is `zeroTrailer`, whose bytes `zeroTrailer_bufByte` gives. -/
theorem postAltMicroStep : Obligations.PostAltMicroStep := by
  intro s hp hv h4 hl hw
  have hstep := engineStep_post_alt (s := s) (by rw [hv]; decide) h4 hl
  rw [← hp] at hstep
  exact ⟨_, hstep, zeroTrailer_bufByte hw h4⟩

/-- Settles O34: the step is `dropTrailer`, and `LEN - 4` does not wrap. -/
theorem postStdMicroStep : Obligations.PostStdMicroStep := by
  intro s hp hv h4
  have hstep := engineStep_post_std (cfg := Config.platform) (s := s) hv h4
  rw [← hp] at hstep
  rw [← sub_four_eq_ofNat h4]
  exact hstep

/-- Settles O37: `LEN + 4` does not wrap (R4), the cipher pass covers the longer buffer, and its bytes are
those of `effectOf_encryptStd_bufByte_eq`. -/
theorem encryptStdResult : Obligations.EncryptStdResult := by
  intro s hs hroom hw
  have hlen : (s.len + 4).toNat = s.len.toNat + 4 := toNat_add_four platform_valid (.inr hroom)
  refine ⟨_, ?_, effectOf_encryptStd_bufByte_eq (s := accept .encryptStd s) hw platform_valid hroom⟩
  rw [exec_of_ready hs (lengthRefusal_encryptStd hroom), not_hashBytes,
    show s.len.toNat + 7 = s.len.toNat + 4 + 3 from rfl, ← hlen, BitVec.ofNat_toNat, BitVec.setWidth_eq]
  rfl

/-- Settles O38: hash pass, overlay and cipher pass in turn, whose bytes `effectOf_encryptAlt_bufByte_eq`
gives. -/
theorem encryptAltResult : Obligations.EncryptAltResult := by
  intro s hs h4 hw
  refine ⟨_, ?_, effectOf_encryptAlt_bufByte_eq (s := accept .encryptAlt s) hw h4⟩
  rw [exec_of_ready hs (lengthRefusal_of_four_le (by decide) h4), not_hashBytes]
  rfl

/-- Settles O39: one cipher pass, whose bytes `cipherPass_bufByte` gives; then `LEN` falls without a wrap. -/
theorem decryptStdResult : Obligations.DecryptStdResult := by
  intro s hs h4 hw
  refine ⟨_, ?_, cipherPass_bufByte (s := accept .decryptStd s) hw seedStd⟩
  rw [exec_of_ready hs (lengthRefusal_of_four_le (by decide) h4), ← sub_four_eq_ofNat h4]
  rfl

/-- Settles O40: cipher pass and zeros in turn, whose bytes `effectOf_decryptAlt_bufByte_eq` gives. -/
theorem decryptAltResult : Obligations.DecryptAltResult := fun s hs h4 hw =>
  ⟨_, exec_of_ready hs (lengthRefusal_of_four_le (by decide) h4),
    effectOf_decryptAlt_bufByte_eq (s := accept .decryptAlt s) hw h4⟩

/-- Settles O41: `cipher` undoes itself, and the last four bytes, the trailer, are dropped or replaced. -/
theorem byteListRoundTrips : Obligations.ByteListRoundTrips :=
  fun _ p => ⟨take_cipher_cipher_append p _ seedStd, fun _ =>
    congrArg (· ++ [0, 0, 0, 0]) (take_cipher_cipher_append (p.take (p.length - 4)) _ seedAlt)⟩

/-- Settles O42: of the `LEN + 4` bytes that `encrypt.std` leaves, the second keystream cancels the first. -/
theorem standardRoundTripOnTheMachine : Obligations.StandardRoundTripOnTheMachine := by
  intro s hs hroom hw
  obtain ⟨t, ht, hready, hwt, hlen, hcrc, hstatus, hbytes⟩ := encryptStd_completes hs hroom hw
  have henc := fun a =>
    (hbytes a).trans (effectOf_encryptStd_bufByte_eq hw platform_valid hroom a)
  obtain ⟨m, hu, hdec⟩ := decryptStdResult t hready (by omega) hwt
  refine ⟨t, _, ht, hu, ?_, fun a ha => (hdec a).trans ?_, fun k hk => (hdec _).trans ?_,
    fun a ha => (hdec a).trans ?_, hcrc, (congrArg statusDone hstatus).trans rfl⟩
  · show BitVec.ofNat 32 (t.len.toNat - 4) = s.len
    rw [hlen, Nat.add_sub_cancel, BitVec.ofNat_toNat, BitVec.setWidth_eq]
  · rw [if_pos (by omega), henc, if_pos ha]
    exact xor_cancel_right _ _
  · rw [if_pos (by omega), henc, if_neg (by omega), if_pos (by omega), Nat.add_sub_cancel_left]
    exact xor_cancel_right _ _
  · rw [if_neg (by omega), henc, if_neg (by omega), if_neg (by omega)]

/-- Settles O43: as O42 below the trailer; `decrypt.alt` puts zeros where `encrypt.alt` put the trailer. -/
theorem alternateRoundTripOnTheMachine : Obligations.AlternateRoundTripOnTheMachine := by
  intro s hs h4 hw
  obtain ⟨t, ht, hready, hwt, hlen, hbytes⟩ := encryptAlt_completes hs h4 hw
  have henc := fun a => (hbytes a).trans (effectOf_encryptAlt_bufByte_eq hw h4 a)
  rw [← hlen] at h4 henc ⊢
  obtain ⟨m, hu, hdec⟩ := decryptAltResult t hready h4 hwt
  refine ⟨t, _, ht, hu, rfl, fun a ha => (hdec a).trans ?_, fun a hle hlt => (hdec a).trans ?_,
    fun a ha => (hdec a).trans ?_⟩
  · rw [if_pos ha, henc, if_pos ha]
    exact xor_cancel_right _ _
  · rw [if_neg (by omega), if_pos hlt]
  · rw [if_neg (by omega), if_neg (by omega), henc, if_neg (by omega), if_neg (by omega)]

/-- Settles O45: neither `cipherPass` nor what follows it in a `decrypt` names the table. -/
theorem cipherAndDecryptNeverReadTheTable : Obligations.CipherAndDecryptNeverReadTheTable :=
  fun _ _ _ => ⟨rfl, rfl, rfl, rfl⟩

end

/-! Proofs of the family 60_exceptions: which refusal a command meets and what it changes (R183 to R185,
R187), and that no step stops under the invariant (R191). -/

namespace Sys2Proof.Machine

/-! ### A command that is dropped or refused (spec/60_exceptions.md R183 to R185, R187) -/

theorem exec_of_busy {s : State} (hb : s.status.busy = true) (i : Instr) :
    exec i s = .next (dropWhileBusy s) := by
  have hdrop : issueInstr Config.platform i s = dropWhileBusy s := if_pos hb
  have ha : ¬ isAccepted Config.platform i s := fun ha => Bool.false_ne_true (ha.1.symm.trans hb)
  rw [exec_not_accepted ha, hdrop]

theorem exec_of_refusal {i : Instr} {s : State} {c : RefusalCode} (hb : s.status.busy = false)
    (hr : refusalOf Config.platform i s = some c) : exec i s = .next (refuseCommand c s) := by
  have ha : ¬ isAccepted Config.platform i s := fun ha => nomatch hr.symm.trans ha.2
  rw [exec_not_accepted ha, issueInstr, if_neg (by simp [hb]), hr]

section
variable {cfg : Config} {s : State}

theorem refusalOf_of_fatal (hf : s.status.fatal = true) (i : Instr) :
    refusalOf cfg i s = some .table := if_pos hf

theorem refusalOf_of_valid (hf : s.status.fatal = false) (i : Instr) :
    refusalOf cfg i s = lengthRefusal cfg i s := if_neg (by simp [hf])

theorem lengthRefusal_of_lt_four {i : Instr} (hi : i = .decryptStd ∨ i = .decryptAlt ∨ i = .encryptAlt)
    (hl : s.len.toNat < 4) : lengthRefusal cfg i s = some .length := by
  rcases hi with rfl | rfl | rfl
  all_goals exact if_pos hl

theorem lengthRefusal_encryptStd_of_gt (hl : s.len.toNat + 4 > cfg.bufCap) :
    lengthRefusal cfg .encryptStd s = some .capacity := if_pos hl

/-! ### No micro-step faults under the invariant (spec/60_exceptions.md R191) -/

/-- HASH reads within the buffer, and leaves it for an `OPL` that has a next phase (R142, R143). -/
theorem hashStep_next (h : Inv cfg s) (hp : s.phase = .hash) : ∃ t, hashStep cfg s = .next t := by
  have hphase := h.phaseInv
  rw [PhaseInv, hp] at hphase
  obtain ⟨hop, -, hle⟩ := hphase
  rcases hle.lt_or_eq with hlt | heq
  · exact ⟨_, hashStep_of_pos_lt hlt h.lenBound⟩
  · rw [hashStep_of_pos_eq (BitVec.eq_of_toNat_eq heq), hashExit]
    rcases hop with ho | ho
    · exact ⟨_, if_pos ho⟩
    · exact ⟨_, (if_neg (by rw [ho]; decide)).trans (if_pos ho)⟩

/-- TRAIL has its four indices: acceptance checked the room (R96, R161, R164). -/
theorem trailStep_next (h : Inv cfg s) (hp : s.phase = .trail) : ∃ t, trailStep cfg s = .next t := by
  have hphase := h.phaseInv
  rw [PhaseInv, hp] at hphase
  obtain ⟨hop, hfit⟩ := hphase
  have hfit := hfit hop
  by_cases hv : s.vl = 0
  · exact ⟨_, engineStep_trail_std hv (by rwa [if_pos hv] at hfit)⟩
  · exact ⟨_, engineStep_trail_alt hv (by rwa [if_neg hv] at hfit) h.lenBound⟩

/-- A stride's lanes lie within the buffer (R116, `passPosition_strideBody`). -/
theorem strideStep_next (hcap : cfg.Valid) (h : Inv cfg s) (hp : s.phase = .stride) :
    ∃ t, strideStep cfg s = .next t := by
  have hphase := h.phaseInv
  rw [PhaseInv, hp] at hphase
  obtain ⟨-, hpass⟩ := hphase
  by_cases hr : s.rem = 0
  · exact ⟨_, if_pos hr⟩
  · obtain ⟨-, hin, -⟩ := passPosition_strideBody hcap h.lenBound hr hpass
    exact ⟨_, (if_neg hr).trans (if_pos (hin.trans h.lenBound))⟩

/-- POST has its four bytes: acceptance checked `LEN` (R96, R167, R170). -/
theorem postStep_next (h : Inv cfg s) (hp : s.phase = .post) : ∃ t, postStep cfg s = .next t := by
  have hphase := h.phaseInv
  rw [PhaseInv, hp] at hphase
  obtain ⟨-, h4⟩ := hphase
  by_cases hv : s.vl = 0
  · exact ⟨_, engineStep_post_std (cfg := cfg) hv h4⟩
  · exact ⟨_, engineStep_post_alt hv h4 h.lenBound⟩

/-- Under the invariant the engine always has its next micro-step. -/
theorem engineStep_next (hcap : cfg.Valid) (h : Inv cfg s) : ∃ t, engineStep cfg s = .next t := by
  rw [engineStep]
  cases hp : s.phase with
  | idle | hinit | ksinit | finish => exact ⟨_, rfl⟩
  | hash => exact hashStep_next h hp
  | trail => exact trailStep_next h hp
  | stride => exact strideStep_next hcap h hp
  | post => exact postStep_next h hp

end

/-! ### No event of the host's side stops the block (spec/60_exceptions.md R191, spec/20_memory.md R61) -/

/-- A command on a buffer that exists is dropped, refused or done whole. -/
theorem exec_next (i : Instr) {s : State} (hl : s.len.toNat ≤ Config.platform.bufCap) :
    ∃ t, exec i s = .next t := by
  by_cases ha : isAccepted Config.platform i s
  · exact ⟨_, exec_accepted ha hl⟩
  · exact ⟨_, exec_not_accepted ha⟩

theorem runWord_next (w : Word) {s : State} (hl : s.len.toNat ≤ Config.platform.bufCap) :
    ∃ t, runWord exec w s = .next t := by
  rw [runWord]
  cases decode w with
  | ok i => exact exec_next i hl
  | error e => exact ⟨_, rfl⟩

theorem hostEvent_next (e : HostEvent) {s : State} (h : Inv Config.platform s) :
    ∃ t, hostEvent Config.platform exec e s = .next t := by
  cases e with
  | op o => exact ⟨_, rfl⟩
  | run w => exact runWord_next w h.lenBound
  | pass => exact engineStep_next platform_valid h
  | wait =>
    rw [hostEvent]
    split
    · exact engineStep_next platform_valid (h.withHost _ s.replies s.draws)
    · exact ⟨_, rfl⟩
  | store => exact ⟨_, rfl⟩
  | reset v => exact ⟨_, rfl⟩

end Sys2Proof.Machine

section

open Sys2Proof Sys2Proof.Machine

/-- Settles O51: the next event of the host's side, or the next micro-step, has an answer in every state
that meets the invariant. -/
theorem noStepStopsUnderTheInvariant : Obligations.NoStepStopsUnderTheInvariant := by
  intro s h
  rw [step, stepWith]
  split
  · exact engineStep_next platform_valid h
  · next e rest _ => exact hostEvent_next e (h.withHost rest s.replies s.draws)

/-- Settles O7: each condition decides which refusal the command meets, and a refusal, or a drop, writes
`STATUS` only. -/
theorem refusedCommandsChangeOnlyStatus : Obligations.RefusedCommandsChangeOnlyStatus := by
  refine ⟨fun s hb => ⟨fun hf i => ?table, fun hf hl i hi => ?length, fun hf hl => ?capacity⟩,
    fun s hb i => exec_of_busy hb i⟩
  case table => exact exec_of_refusal hb (refusalOf_of_fatal hf i)
  case length =>
    exact exec_of_refusal hb ((refusalOf_of_valid hf i).trans (lengthRefusal_of_lt_four hi hl))
  case capacity =>
    exact exec_of_refusal hb
      ((refusalOf_of_valid hf .encryptStd).trans (lengthRefusal_encryptStd_of_gt hl))

end

/-! Proofs of the family 70_reset_and_hazards: the reset input (R210, R211), and the two flags of `STATUS`
that nothing else clears (R27). -/

namespace Sys2Proof.Machine

/-! ### The reset input (spec/70_reset_and_hazards.md R210, R211) -/

/-- The reset event is taken whatever the block is doing. -/
theorem step_of_reset {s : State} {v : Bool} {rest : List HostEvent}
    (hin : s.inputs = .reset v :: rest) : step s = .next (resetInput v { s with inputs := rest }) := by
  rw [step, stepWith, hin]
  rfl

/-! ### `FATAL` and `WRBUSY` between two resets (spec/10_state.md R27) -/

/-- From `s` to `t`, `FATAL` is as it was and `WRBUSY`, if it was set, still is. -/
def KeepsFatalAndWrbusy (s t : State) : Prop :=
  t.status.fatal = s.status.fatal ∧ (s.status.wrbusy = true → t.status.wrbusy = true)

section
variable {cfg : Config} {s t : State}

theorem keepsFatalAndWrbusy_dropWhileBusy : KeepsFatalAndWrbusy s (dropWhileBusy s) :=
  ⟨rfl, fun _ => rfl⟩

theorem keepsFatalAndWrbusy_issue (w : Word) : KeepsFatalAndWrbusy s (issue cfg w s) := by
  rcases issue_cases cfg w s with ⟨-, ht⟩ | ⟨-, c, ht⟩ | ⟨i, -, -, ht⟩
  · exact ht ▸ keepsFatalAndWrbusy_dropWhileBusy
  · exact ht ▸ ⟨rfl, id⟩
  · exact ht ▸ ⟨rfl, id⟩

theorem keepsFatalAndWrbusy_hostOp (o : HostOp) : KeepsFatalAndWrbusy s (hostOp cfg o s) := by
  rcases hostOp_cases cfg o s with ⟨r, n, ht⟩ | ⟨ht, -⟩ | ⟨-, ht | ⟨n, -, ht⟩ | ⟨a, b, -, ht⟩ | ⟨w, ht⟩⟩
  · exact ht ▸ ⟨rfl, id⟩
  · exact ht ▸ keepsFatalAndWrbusy_dropWhileBusy
  · exact ht ▸ ⟨rfl, id⟩
  · exact ht ▸ ⟨rfl, id⟩
  · exact ht ▸ ⟨rfl, id⟩
  · exact ht ▸ keepsFatalAndWrbusy_issue w

/-- An engine micro-step leaves `STATUS`, unless it is FINISH (R97). -/
theorem engineStep_status (h : engineStep cfg s = .next t) :
    t.status = s.status ∨ (s.phase = .finish ∧ t.status = s.status.finished) := by
  rcases engineStep_cases h with ⟨-, rfl⟩ | ⟨-, rfl⟩ | ⟨-, -, rfl⟩ | ⟨-, -, ⟨-, rfl⟩ | ⟨-, rfl⟩⟩ |
    ⟨-, -, -, rfl⟩ | ⟨-, -, -, -, rfl⟩ | ⟨-, rfl⟩ | ⟨-, -, rfl⟩ | ⟨-, -, -, rfl⟩ | ⟨-, -, -, rfl⟩ |
    ⟨-, -, -, -, rfl⟩ | ⟨hp, rfl⟩
  any_goals exact .inl rfl
  exact .inr ⟨hp, rfl⟩

theorem keepsFatalAndWrbusy_engineStep (h : engineStep cfg s = .next t) :
    KeepsFatalAndWrbusy s t := by
  rw [KeepsFatalAndWrbusy]
  rcases engineStep_status h with ht | ⟨-, ht⟩
  · rw [ht]
    exact ⟨rfl, id⟩
  · rw [ht]
    exact ⟨rfl, id⟩

/-- The effect of an accepted command lies between acceptance and FINISH, and leaves `STATUS`. -/
theorem keepsFatalAndWrbusy_finishStep_effectOf (i : Instr) :
    KeepsFatalAndWrbusy s (finishStep (effectOf cfg i (accept i s))) := by
  obtain ⟨hstatus, -⟩ := effectOf_frame cfg i (accept i s)
  rw [KeepsFatalAndWrbusy, finishStep_status, hstatus]
  exact ⟨rfl, id⟩

theorem keepsFatalAndWrbusy_runWord {w : Word} (h : runWord exec w s = .next t) :
    KeepsFatalAndWrbusy s t := by
  rcases runWord_cases h with ⟨-, rfl⟩ | ⟨-, c, rfl⟩ | ⟨i, -, -, -, rfl⟩
  · exact keepsFatalAndWrbusy_dropWhileBusy
  · exact ⟨rfl, id⟩
  · exact keepsFatalAndWrbusy_finishStep_effectOf i

end

end Sys2Proof.Machine

section

open Sys2Proof Sys2Proof.Machine

/-- Settles O53: every way a step can go but the reset keeps the two flags; the host's events, which a step
takes from the queue first, are no part of `STATUS`. -/
theorem onlyResetClearsWrbusyAndFatal : Obligations.OnlyResetClearsWrbusyAndFatal := by
  intro s t h hreset
  obtain ⟨q, heng | ⟨o, rfl⟩ | rfl | ⟨w, -, hrun⟩ | ⟨v, hin, -⟩⟩ := step_cases h
  · exact keepsFatalAndWrbusy_engineStep (s := { s with inputs := q }) heng
  · exact keepsFatalAndWrbusy_hostOp (s := { s with inputs := q }) o
  · exact ⟨rfl, id⟩
  · exact keepsFatalAndWrbusy_runWord (s := { s with inputs := q }) hrun
  · exact absurd hin (hreset v q)

/-- Settles O2: the step is `resetInput`, which writes every register; storage is empty, so that each byte
is what the new reset left there. -/
theorem resetInputFromAnyState : Obligations.ResetInputFromAnyState := fun _ _ _ hin =>
  ⟨_, step_of_reset hin, rfl, rfl, rfl, rfl, rfl, rfl, rfl, rfl, rfl, rfl, rfl, rfl, rfl, rfl,
    fun _ => rfl, rfl, rfl, rfl⟩

end

/-! Proofs of the family other: what a step does for each event of the host's side (logs 3, 5 to 7, 11),
and the end of a script (70_reset_and_hazards R222). -/

namespace Sys2Proof.Machine

/-! ### The next event -/

theorem step_of_inputs_nil {s : State} (hin : s.inputs = []) :
    step s = engineStep Config.platform s := by
  rw [step, stepWith, hin]

theorem step_of_inputs_cons {s : State} {e : HostEvent} {rest : List HostEvent}
    (hin : s.inputs = e :: rest) :
    step s = hostEvent Config.platform exec e { s with inputs := rest } := by
  rw [step, stepWith, hin]

section
variable {cfg : Config} {s : State}

theorem engineStep_idle (hp : s.phase = .idle) : engineStep cfg s = .next s := by
  rw [engineStep, hp]

theorem runWord_of_decode_ok {ex : Instr → State → Host.Outcome State Fault Refusal} {w : Word}
    {i : Instr} (hd : decode w = .ok i) : runWord ex w s = ex i s := by
  rw [runWord, hd]

theorem runWord_of_decode_error {ex : Instr → State → Host.Outcome State Fault Refusal} {w : Word}
    {e : DecodeError} (hd : decode w = .error e) : runWord ex w s = .next (issueIllegal s) := by
  rw [runWord, hd]

/-- While the block is busy `wait` stays the first event, and the engine takes a step. -/
theorem hostEvent_wait_of_busy {ex : Instr → State → Host.Outcome State Fault Refusal}
    (hb : s.status.busy = true) :
    hostEvent cfg ex .wait s = engineStep cfg { s with inputs := .wait :: s.inputs } := if_pos hb

theorem hostEvent_wait_of_idle {ex : Instr → State → Host.Outcome State Fault Refusal}
    (hb : s.status.busy = false) : hostEvent cfg ex .wait s = .next s := if_neg (by simp [hb])

/-- `store` on an idle block reads `LEN` and schedules that many bytes (R99). -/
theorem hostEvent_store_of_idle {ex : Instr → State → Host.Outcome State Fault Refusal}
    (hb : s.status.busy = false) :
    hostEvent cfg ex .store s =
      .next (reply (.word s.len) { s with inputs := storeReads s.len ++ s.inputs }) := by
  have hlen : lenAsRead cfg s = s.len := if_neg (by simp [hb])
  rw [hostEvent, hlen, hostReadReg_of_idle]
  · rfl
  · exact hb

/-- `store` on a busy block believes the free value that its read of `LEN` returns (R73, R99). -/
theorem hostEvent_store_of_busy {ex : Instr → State → Host.Outcome State Fault Refusal}
    (hb : s.status.busy = true) :
    hostEvent cfg ex .store s =
      .next (replyFreeWord cfg { s with inputs := storeReads (cfg.freeWord s.draws) ++ s.inputs }) := by
  have hlen : lenAsRead cfg s = cfg.freeWord s.draws := if_pos hb
  rw [hostEvent, hlen, hostReadReg_of_busy]
  · exact hb
  · rfl

/-! ### The last command of a script (spec/70_reset_and_hazards.md R222) -/

/-- Acceptance does not look at the host's further events. -/
theorem isAccepted_withInputs {i : Instr} (ha : isAccepted cfg i s) (q : List HostEvent) :
    isAccepted cfg i { s with inputs := q } :=
  ⟨ha.1, (refusalOf_congr (s := s) rfl rfl i).trans ha.2⟩

theorem issue_encode_of_accepted {i : Instr} (ha : isAccepted cfg i s) :
    issue cfg (encode i) s = accept i s := by
  obtain ⟨hb, hr⟩ := ha
  simp [issue, issueInstr, hb, hr]

theorem lengthRefusal_ne_noRefusal (i : Instr) : lengthRefusal cfg i s ≠ some .noRefusal := by
  rw [lengthRefusal_eq_ite]
  split_ifs <;> exact fun h => nomatch h

/-- A refusal has a code other than 0 (R180). -/
theorem refusalOf_ne_noRefusal (i : Instr) : refusalOf cfg i s ≠ some .noRefusal := by
  rw [refusalOf]
  split
  · exact fun h => nomatch h
  · exact lengthRefusal_ne_noRefusal i

/-- A completed command clears `BUSY` and `ERR`, and leaves `WRBUSY` and the events as they were (R95,
R97). -/
theorem goodEnd_finishStep_effectOf (hin : s.inputs = []) (hw : s.status.wrbusy = false) (i : Instr) :
    GoodEnd false (finishStep (effectOf cfg i (accept i s))) := by
  obtain ⟨hstatus, -, -, hinputs, -⟩ := effectOf_frame cfg i (accept i s)
  rw [GoodEnd, ScriptEnded, finishStep_status, finishStep_inputs, hstatus, hinputs]
  exact ⟨⟨hin, rfl⟩, hw, fun _ => rfl⟩

theorem goodEnd_refuseCommand (hin : s.inputs = []) (hb : s.status.busy = false)
    (hw : s.status.wrbusy = false) (c : RefusalCode) : GoodEnd true (refuseCommand c s) :=
  ⟨⟨hin, hb⟩, hw, fun h => nomatch h⟩

/-- A refusal that the script did not provoke is not a good end. -/
theorem not_goodEnd_refuseCommand {c : RefusalCode} (hc : c ≠ .noRefusal) :
    ¬ GoodEnd false (refuseCommand c s) := fun ⟨_, _, herr⟩ => hc (herr rfl)

/-- Acceptance makes the block busy. -/
theorem not_scriptEnded_accept (i : Instr) : ¬ ScriptEnded (accept i s) :=
  fun ⟨_, hidle⟩ => nomatch hidle

end

end Sys2Proof.Machine

section

open Sys2Proof Sys2Proof.Machine

/-- Settles O46: the event is `runWord`, which is a case split on the decoder's answer. -/
theorem stepRunsTheDecodedCommand : Obligations.StepRunsTheDecodedCommand := by
  intro s w rest hin
  have hstep : step s = runWord exec w { s with inputs := rest } := step_of_inputs_cons hin
  exact ⟨fun i hd => hstep.trans (runWord_of_decode_ok hd),
    fun e hd => hstep.trans (runWord_of_decode_error hd)⟩

/-- Settles O47: one clause per event, idle and busy. The state from which `wait` takes an engine step
has `wait` back in front of its events, so that it is the state the step began in. -/
theorem stepTakesTheNextEvent : Obligations.StepTakesTheNextEvent := by
  intro s rest
  refine ⟨step_of_inputs_nil, fun hin hp => ?idle, fun o hin => step_of_inputs_cons hin,
    step_of_inputs_cons, fun hin hb => ?waitBusy, fun hin hb => ?waitIdle, fun hin hb => ?storeIdle,
    fun hin hb => ?storeBusy⟩
  case idle => exact (step_of_inputs_nil hin).trans (engineStep_idle hp)
  case waitBusy =>
    have hback : { s with inputs := .wait :: rest } = s := by rw [← hin]
    calc step s = hostEvent Config.platform exec .wait { s with inputs := rest } :=
          step_of_inputs_cons hin
      _ = engineStep Config.platform { s with inputs := .wait :: rest } := hostEvent_wait_of_busy hb
      _ = engineStep Config.platform s := by rw [hback]
  case waitIdle => exact (step_of_inputs_cons hin).trans (hostEvent_wait_of_idle hb)
  case storeIdle => exact (step_of_inputs_cons hin).trans (hostEvent_store_of_idle hb)
  case storeBusy => exact (step_of_inputs_cons hin).trans (hostEvent_store_of_busy hb)

/-- Settles O48: the step is `exec`, or the `CMD` write, with no event left; whether that is an end, and
which, follows from the state that completion, the refusal or acceptance gives. -/
theorem scriptEndsWithItsLastCommand : Obligations.ScriptEndsWithItsLastCommand := by
  intro s i hw hl
  have hrun (hin : s.inputs = [.run (encode i)]) : step s = exec i { s with inputs := [] } :=
    (step_of_inputs_cons hin).trans (runWord_of_decode_ok (decode_encode i))
  refine ⟨fun hin ha => ?accepted, fun hin hb hr => ?refused, fun hin ha => ?bare⟩
  case accepted =>
    exact ⟨_, (hrun hin).trans (exec_accepted (isAccepted_withInputs ha []) hl),
      goodEnd_finishStep_effectOf (s := { s with inputs := [] }) rfl hw i⟩
  case refused =>
    obtain ⟨c, hc⟩ := Option.ne_none_iff_exists'.mp hr
    have hcode : c ≠ .noRefusal := fun h => refusalOf_ne_noRefusal i (h ▸ hc)
    have hrefusal : refusalOf Config.platform i { s with inputs := [] } = some c :=
      (refusalOf_congr (s := s) rfl rfl i).trans hc
    exact ⟨_, (hrun hin).trans (exec_of_refusal hb hrefusal),
      goodEnd_refuseCommand (s := { s with inputs := [] }) rfl hb hw c,
      not_goodEnd_refuseCommand hcode⟩
  case bare =>
    have hissue : step s = .next (issue Config.platform (encode i) { s with inputs := [] }) :=
      step_of_inputs_cons hin
    rw [issue_encode_of_accepted (isAccepted_withInputs ha [])] at hissue
    exact ⟨_, hissue, not_scriptEnded_accept i⟩

end
